-- ==== Sys2Proof/Word.lean ====
section
/-! DEFINITION. The two sizes of datum the spec uses: the 16-bit word and the 8-bit character. -/

namespace Sys2Proof

/-- A word: "an unsigned integer in 0 .. 65,535 (16 bits)"; `+` and `-` on words are modulo 65,536
(00_scope.md rule R8). It is also an address (20_memory.md rules R40 to R42). -/
abbrev Word := BitVec 16

/-- A character code, a trap vector, or one half of a stored word (rules R62 and R162). -/
abbrev Byte := BitVec 8

end Sys2Proof
end

