-- ==== Sys2Proof/Syntax.lean ====
section
/-! DEFINITION. The sixteen variants, and the instructions as syntax: one constructor for each of the 25 rows of spec/opcode_table.json. Fields
are raw (not yet sign-extended), as in 30_encoding.md rules R68 and R69; bits the decoder ignores (rule R65) are in no
constructor. -/

namespace Sys2Proof

/-- The eight general registers R0 to R7 (10_state.md rule R11). -/
inductive Reg where
  | r0 | r1 | r2 | r3 | r4 | r5 | r6 | r7
  deriving DecidableEq, Repr

/-- The sixteen variants, one per opcode value (30_encoding.md rules R61 and R68): fourteen instructions and the two
illegal opcodes. -/
inductive Opcode where
  | br | add | ld | st | jsr | and | ldr | str | rti | not | ldi | sti | jmp | res | lea | trap
  deriving DecidableEq, Repr

/-- The decoder's output (30_encoding.md rule R68), in the split naming of the opcode table: ADD, AND and JSR have a
constructor for each value of their mode bit, and TRAP has one for each built-in routine beside the general one. -/
inductive Instr where
  /-- BR: branch if the condition field `nzp` (bit 2 = n, bit 1 = z, bit 0 = p) meets cond (rule R110). -/
  | br (nzp : BitVec 3) (off : BitVec 9)
  /-- ADD, register form (rule R101). -/
  | add (dr sr1 sr2 : Reg)
  /-- ADDi: ADD, immediate form (rule R101). -/
  | addi (dr sr1 : Reg) (imm : BitVec 5)
  /-- LD (rule R120). -/
  | ld (dr : Reg) (off : BitVec 9)
  /-- ST (rule R124). -/
  | st (sr : Reg) (off : BitVec 9)
  /-- JSRR: the register form of JSR (rule R113). -/
  | jsrr (base : Reg)
  /-- JSR: the PC-relative form of JSR (rule R112). -/
  | jsr (off : BitVec 11)
  /-- AND, register form (rule R102). -/
  | and (dr sr1 sr2 : Reg)
  /-- ANDi: AND, immediate form (rule R102). -/
  | andi (dr sr1 : Reg) (imm : BitVec 5)
  /-- LDR (rule R122). -/
  | ldr (dr base : Reg) (off : BitVec 6)
  /-- STR (rule R126). -/
  | str (sr base : Reg) (off : BitVec 6)
  /-- RTI, an IllegalOpcode variant: it carries the rest of its word for the fault record (rule R140). -/
  | rti (low : BitVec 12)
  /-- NOT (rule R103). -/
  | not (dr sr : Reg)
  /-- LDI (rule R121). -/
  | ldi (dr : Reg) (off : BitVec 9)
  /-- STI (rule R125). -/
  | sti (sr : Reg) (off : BitVec 9)
  /-- JMP; RET is `jmp .r7` (rule R111). -/
  | jmp (base : Reg)
  /-- RES, an IllegalOpcode variant: it carries the rest of its word for the fault record (rule R141). -/
  | res (low : BitVec 12)
  /-- LEA (rule R123). -/
  | lea (dr : Reg) (off : BitVec 9)
  /-- TRAP x20 (rule R131). -/
  | getc
  /-- TRAP x21 (rule R132). -/
  | out
  /-- TRAP x22 (rule R133). -/
  | puts
  /-- TRAP x23, the table's IN (rule R134). -/
  | input
  /-- TRAP x24 (rule R135). -/
  | putsp
  /-- TRAP x25 (rule R136). -/
  | halt
  /-- TRAP with a vector of its own (rule R130); well-formed with the 250 vectors that name no routine (rule R137). -/
  | trap (vect : Byte)
  deriving DecidableEq, Repr

end Sys2Proof
end

