-- ==== Sys2Proof/Config.lean ====
section
/-! DEFINITION. The named parameters of 00_scope.md rule R7, at the values its value column gives. GPR_RESET and INIT_MEM are arguments of `Machine.State.launch`; the values `State.reset` takes for
them stand here. -/

namespace Sys2Proof.Config

/-- OPCODE_MAP, a "bijection from the sixteen opcode values to the sixteen variants", at the table of 30_encoding.md rule
R70 (decision D1; log entry 6). `opcodeMap` reads the variant of an opcode value and `opcodeMap.symm` the value of a
variant. -/
def opcodeMap : BitVec 4 ≃ Opcode where
  toFun b :=
    match b.toNat with
    | 0b0000 => .br
    | 0b0001 => .add
    | 0b0010 => .ld
    | 0b0011 => .st
    | 0b0100 => .jsr
    | 0b0101 => .and
    | 0b0110 => .ldr
    | 0b0111 => .str
    | 0b1000 => .rti
    | 0b1001 => .not
    | 0b1010 => .ldi
    | 0b1011 => .sti
    | 0b1100 => .jmp
    | 0b1101 => .res
    | 0b1110 => .lea
    | _ => .trap
  invFun
    | .br => 0b0000
    | .add => 0b0001
    | .ld => 0b0010
    | .st => 0b0011
    | .jsr => 0b0100
    | .and => 0b0101
    | .ldr => 0b0110
    | .str => 0b0111
    | .rti => 0b1000
    | .not => 0b1001
    | .ldi => 0b1010
    | .sti => 0b1011
    | .jmp => 0b1100
    | .res => 0b1101
    | .lea => 0b1110
    | .trap => 0b1111
  left_inv := by decide
  right_inv o := by cases o <;> rfl

/-- PC_START, "a fixed start address, conventionally 0x3000" (10_state.md rule R28, decision D21). -/
def pcStart : Word := 0x3000

/-- MR_KBSR, the keyboard-status address (20_memory.md rule R45, decision D5; log entry 3). -/
def mrKbsr : Word := 0xFE00

/-- MR_KBDR, the keyboard-data address, different from MR_KBSR (20_memory.md rule R45, decision D5; log entry 3). -/
def mrKbdr : Word := 0xFE02

/-- The word each general register holds in `State.reset`. DESIGN CHOICE, unsafe (log entry 1): the spec leaves
GPR_RESET open (10_state.md rule R30, decision D17). -/
def gprReset : Word := 0x0000

/-- What a byte of memory with no entry reads as: "Memory zero-filled" (10_state.md rule R31). -/
def unlistedByte : Byte := 0x00

/-- IN_PROMPT: "Enter a character: " (rule R7, decision D12; log entry 4). -/
def inPrompt : List Byte :=
  [0x45, 0x6E, 0x74, 0x65, 0x72, 0x20, 0x61, 0x20, 0x63, 0x68, 0x61, 0x72, 0x61, 0x63, 0x74, 0x65, 0x72, 0x3A, 0x20]

/-- HALT_NOTICE: "HALT" and a line feed (rule R7, decision D13; log entry 4). -/
def haltNotice : List Byte := [0x48, 0x41, 0x4C, 0x54, 0x0A]

end Sys2Proof.Config
end

