-- ==== Sys2Proof/WellFormed.lean ====
section
/-! DEFINITION. Which terms of `Instr` some word decodes to. The field types bound every operand already; the one check
left is that the general TRAP row does not stand for a vector that has a row of its own. -/

namespace Sys2Proof

/-- The vectors 0x20 to 0x25 that name a built-in routine (30_encoding.md rule R72). -/
def namesRoutine (vect : Byte) : Bool :=
  decide (0x20 ≤ vect.toNat) && decide (vect.toNat ≤ 0x25)

/-- Well-formed: the TRAP row is the lowest-priority row of spec/opcode_table.json ("the six rows GETC .. HALT refine
it (match them first)"), so `trap v` stands only for a vector that names no routine. -/
def Instr.wellFormed : Instr → Bool
  | .br _ _ => true
  | .add _ _ _ => true
  | .addi _ _ _ => true
  | .ld _ _ => true
  | .st _ _ => true
  | .jsrr _ => true
  | .jsr _ => true
  | .and _ _ _ => true
  | .andi _ _ _ => true
  | .ldr _ _ _ => true
  | .str _ _ _ => true
  | .rti _ => true
  | .not _ _ => true
  | .ldi _ _ => true
  | .sti _ _ => true
  | .jmp _ => true
  | .res _ => true
  | .lea _ _ => true
  | .getc => true
  | .out => true
  | .puts => true
  | .input => true
  | .putsp => true
  | .halt => true
  | .trap vect => !namesRoutine vect

end Sys2Proof
end

