-- ==== Sys2Proof/Decode.lean ====
section
/-! DEFINITION. The decoder of 30_encoding.md rule R69 and the encoder of rule R77. The opcode numbers are
`Config.opcodeMap`'s (rule R70), the field positions rule R62's and R63's (decisions D2 and D3). -/

namespace Sys2Proof

/-! ## Fields (30_encoding.md rules R61, R62, R67) -/

/-- `IR[lo+n-1 : lo]`, an n-bit field of the instruction word. -/
def field (lo n : Nat) (w : Word) : BitVec n := w.extractLsb' lo n

/-- "A 3-bit register field with value r names general register x[r]" (rule R67). -/
def Reg.ofField (b : BitVec 3) : Reg :=
  match b.toNat with
  | 0 => .r0
  | 1 => .r1
  | 2 => .r2
  | 3 => .r3
  | 4 => .r4
  | 5 => .r5
  | 6 => .r6
  | _ => .r7

/-- The field value that names a register: the inverse of `Reg.ofField`. -/
def Reg.toField : Reg → BitVec 3
  | .r0 => 0
  | .r1 => 1
  | .r2 => 2
  | .r3 => 3
  | .r4 => 4
  | .r5 => 5
  | .r6 => 6
  | .r7 => 7

/-- The register named by the 3-bit field whose lowest bit is `lo`. -/
def regField (lo : Nat) (w : Word) : Reg := Reg.ofField (field lo 3 w)

/-! ## Decoding -/

/-- The TRAP part of the decoder: the rows GETC to HALT are matched before the general TRAP row (rules R72, R130). -/
def decodeTrap (vect : Byte) : Instr :=
  match vect.toNat with
  | 0x20 => .getc
  | 0x21 => .out
  | 0x22 => .puts
  | 0x23 => .input
  | 0x24 => .putsp
  | 0x25 => .halt
  | _ => .trap vect

/-- `Decode(IR)` (rule R69): a pure, total function; "every one of the 65,536 words decodes to exactly one variant"
(rule R68). Bits of no field are ignored (rule R65). -/
def decode (w : Word) : Instr :=
  match Config.opcodeMap (field 12 4 w) with
  | .br => .br (field 9 3 w) (field 0 9 w)
  | .add =>
    if w.getLsbD 5 then .addi (regField 9 w) (regField 6 w) (field 0 5 w)
    else .add (regField 9 w) (regField 6 w) (regField 0 w)
  | .ld => .ld (regField 9 w) (field 0 9 w)
  | .st => .st (regField 9 w) (field 0 9 w)
  | .jsr => if w.getLsbD 11 then .jsr (field 0 11 w) else .jsrr (regField 6 w)
  | .and =>
    if w.getLsbD 5 then .andi (regField 9 w) (regField 6 w) (field 0 5 w)
    else .and (regField 9 w) (regField 6 w) (regField 0 w)
  | .ldr => .ldr (regField 9 w) (regField 6 w) (field 0 6 w)
  | .str => .str (regField 9 w) (regField 6 w) (field 0 6 w)
  | .rti => .rti (field 0 12 w)
  | .not => .not (regField 9 w) (regField 6 w)
  | .ldi => .ldi (regField 9 w) (field 0 9 w)
  | .sti => .sti (regField 9 w) (field 0 9 w)
  | .jmp => .jmp (regField 6 w)
  | .res => .res (field 0 12 w)
  | .lea => .lea (regField 9 w) (field 0 9 w)
  | .trap => decodeTrap (field 0 8 w)

/-- Why the byte decoder rejects. No word is rejected (rule R68); only a byte sequence too short to hold one is. -/
inductive DecodeError where
  /-- Fewer than the two bytes of one instruction word (rule R60): safe, there is no instruction to decode. -/
  | truncated
  deriving DecidableEq, Repr

/-- The decoder on a stream of bytes in the one byte order the spec gives a sequence of words, the image format's:
the first byte is bits 15:8 (rules R51 (a) and R184). It answers the instruction and the bytes left. -/
def decodeBytes : List Byte → Except DecodeError (Instr × List Byte)
  | hi :: lo :: rest => .ok (decode (hi ++ lo), rest)
  | _ => .error .truncated

/-- The instruction read from the `nbits` low bits of `w` (bits above `nbits` are 0), for the host's question about
the opcode table's rows. -/
def decodeTableWord (nbits w : Nat) : Option Instr :=
  let word : Word := BitVec.ofNat 16 (w % 2 ^ nbits)
  match decodeBytes [word.extractLsb' 8 8, word.extractLsb' 0 8] with
  | .ok (i, _) => some i
  | .error _ => none

/-! ## Encoding -/

/-- A field put at bit `lo` of a word of zeros. -/
def place {n : Nat} (lo : Nat) (v : BitVec n) : Word := v.setWidth 16 <<< lo

/-- A register's number at bit `lo` of a word of zeros. -/
def placeReg (lo : Nat) (r : Reg) : Word := place lo r.toField

/-- A variant's opcode value at bits 15:12 of a word of zeros (rule R61). -/
def opcodeWord (o : Opcode) : Word := place 12 (Config.opcodeMap.symm o)

/-- "Assembling a word from fields (the inverse of rule R69 …; ignored bits take the conventional values of rule R65)"
(rule R77). -/
def encode : Instr → Word
  | .br nzp off => opcodeWord .br ||| place 9 nzp ||| place 0 off
  | .add dr sr1 sr2 => opcodeWord .add ||| placeReg 9 dr ||| placeReg 6 sr1 ||| placeReg 0 sr2
  | .addi dr sr1 imm => opcodeWord .add ||| 0x0020 ||| placeReg 9 dr ||| placeReg 6 sr1 ||| place 0 imm
  | .ld dr off => opcodeWord .ld ||| placeReg 9 dr ||| place 0 off
  | .st sr off => opcodeWord .st ||| placeReg 9 sr ||| place 0 off
  | .jsrr base => opcodeWord .jsr ||| placeReg 6 base
  | .jsr off => opcodeWord .jsr ||| 0x0800 ||| place 0 off
  | .and dr sr1 sr2 => opcodeWord .and ||| placeReg 9 dr ||| placeReg 6 sr1 ||| placeReg 0 sr2
  | .andi dr sr1 imm => opcodeWord .and ||| 0x0020 ||| placeReg 9 dr ||| placeReg 6 sr1 ||| place 0 imm
  | .ldr dr base off => opcodeWord .ldr ||| placeReg 9 dr ||| placeReg 6 base ||| place 0 off
  | .str sr base off => opcodeWord .str ||| placeReg 9 sr ||| placeReg 6 base ||| place 0 off
  | .rti low => opcodeWord .rti ||| place 0 low
  | .not dr sr => opcodeWord .not ||| 0x003F ||| placeReg 9 dr ||| placeReg 6 sr
  | .ldi dr off => opcodeWord .ldi ||| placeReg 9 dr ||| place 0 off
  | .sti sr off => opcodeWord .sti ||| placeReg 9 sr ||| place 0 off
  | .jmp base => opcodeWord .jmp ||| placeReg 6 base
  | .res low => opcodeWord .res ||| place 0 low
  | .lea dr off => opcodeWord .lea ||| placeReg 9 dr ||| place 0 off
  | .getc => opcodeWord .trap ||| 0x0020
  | .out => opcodeWord .trap ||| 0x0021
  | .puts => opcodeWord .trap ||| 0x0022
  | .input => opcodeWord .trap ||| 0x0023
  | .putsp => opcodeWord .trap ||| 0x0024
  | .halt => opcodeWord .trap ||| 0x0025
  | .trap vect => opcodeWord .trap ||| place 0 vect

end Sys2Proof
end

