-- ==== Sys2Proof/Machine/State.lean ====
section
/-! DEFINITION. The state of CORE (10_state.md rule R10) as plain data, the reasons a step can stop, and reset. -/

namespace Sys2Proof.Machine

/-- The condition-code register: "exactly one of POSITIVE, ZERO, NEGATIVE at all times"; "a model should hold cond as
a three-valued enumeration" (rules R17, R20, R21). -/
inductive Cond where
  | positive | zero | negative
  deriving DecidableEq, Repr

/-- The run state (rule R22). -/
inductive RunState where
  | running | halted | faulted
  deriving DecidableEq, Repr

/-- The two fatal conditions, each with the `info` the fault record holds for it (rules R23, R151, R152). -/
inductive Condition where
  /-- IllegalOpcode; info is the full 16-bit instruction word. -/
  | illegalOpcode (word : Word)
  /-- IllegalTrapVector; info is the 8-bit trap vector. -/
  | illegalTrapVector (vect : Byte)
  deriving DecidableEq, Repr

/-- The fault record: which condition (cause and info) and the address the instruction was fetched from (rule R23). -/
structure FaultRecord where
  condition : Condition
  addr : Word
  deriving DecidableEq, Repr

/-- Which routine's console read a held step is waiting in (60_exceptions.md rule R163). -/
inductive ConsoleWait where
  | getc | input
  deriving DecidableEq, Repr

/-- The general registers, eight 16-bit slots with no alias and none hard-wired (rule R11). -/
structure Gprs where
  x0 : Word
  x1 : Word
  x2 : Word
  x3 : Word
  x4 : Word
  x5 : Word
  x6 : Word
  x7 : Word
  deriving DecidableEq, Repr

/-- The 65,536 word cells (rules R24, R40, R41) as (byte number, byte) pairs in one canonical form: the cell at
address a is the bytes numbered 2a (bits 15:8) and 2a+1 (bits 7:0), byte numbers strictly rise, and no entry equals
`Config.unlistedByte`. The split into bytes is storage only: memory has no byte order (rule R51; log entry 2). -/
abbrev Memory := List Host.Cell

/-- The complete state of CORE (rule R10), and one field of the model's own (`hold`, log entry 5). -/
structure State where
  /-- x[0] .. x[7] (rule R11). -/
  gprs : Gprs
  /-- The program counter: the address of the next instruction to fetch (rule R14). -/
  pc : Word
  /-- The condition-code register (rule R17). -/
  cond : Cond
  /-- The memory cells, the two keyboard cells among them (rule R24). -/
  mem : Memory
  /-- The run state (rule R22). -/
  run : RunState
  /-- The fault record, empty until run = FAULTED (rules R23, R32). -/
  fault : Option FaultRecord
  /-- The characters typed and not yet consumed, oldest first (rule R25). -/
  kbdIn : List Byte
  /-- Every character CORE has written, in order (rule R25). -/
  conOut : List Byte
  /-- The console read in which a step holds, if one does (rule R163). -/
  hold : Option ConsoleWait
  deriving DecidableEq, Repr

/-- Why a step stops. No instruction's meaning stops on a path that any state takes: the two fatal conditions of the
spec are NEXT states with run = FAULTED (rule R153). -/
inductive Fault where
  /-- Raised by `step` when run = HALTED: "When run is HALTED or FAULTED no step exists" (rule R90). A normal end, not
  an error. Safe: no behaviour is lost. -/
  | runHalted
  /-- Raised by `step` when run = FAULTED (rule R90): the condition "propagated to the caller as an error" with its
  record (rules R94, R167). Safe: no behaviour is lost. -/
  | runFaulted (record : Option FaultRecord)
  /-- Raised by PUTS or PUTSP if a string walk went on past the (length of kbd_in + 1) × 65,536 reads that rule R133
  derives as the most a walk makes. No state reaches it (obligation ExecAlwaysCompletes). Safe. -/
  | walkUnfinished
  deriving DecidableEq, Repr

/-- Why an instruction is given no meaning. -/
inductive Refusal where
  /-- Raised by an arm of `exec` whose instruction has no meaning in the model yet. Safe. No arm raises it now. -/
  | notModelled (mnemonic : String)
  deriving DecidableEq, Repr

/-- The launch state of a run after `Reset()` (70_reset_and_hazards.md rule R180), for every GPR_RESET, every INIT_MEM
and whatever the host has queued in kbd_in (10_state.md rules R28 to R33). -/
def State.launch (gprReset : Gprs) (initMem : Memory) (kbdIn : List Byte) : State where
  gprs := gprReset
  pc := Config.pcStart
  cond := .zero
  mem := initMem
  run := .running
  fault := none
  kbdIn := kbdIn
  conOut := []
  hold := none

/-- The machine right after reset with no image loaded and no key typed. The general registers' value is the model's
(DESIGN CHOICE, log entry 1); all else is the spec's (rules R28, R29, R31 to R33). -/
def State.reset : State :=
  State.launch
    { x0 := Config.gprReset, x1 := Config.gprReset, x2 := Config.gprReset, x3 := Config.gprReset,
      x4 := Config.gprReset, x5 := Config.gprReset, x6 := Config.gprReset, x7 := Config.gprReset }
    [] []

end Sys2Proof.Machine
end

