-- ==== Sys2Proof/Machine/Flags.lean ====
section
/-! DEFINITION. The condition codes: the sign of a word, and the 3-bit value BR tests. -/

namespace Sys2Proof.Machine

/-- The code of a word "interpreted as a 16-bit two's-complement integer: zero → ZERO; bit 15 set → NEGATIVE;
otherwise → POSITIVE" (10_state.md rule R18). -/
def signCond (v : Word) : Cond :=
  if v = 0x0000 then .zero
  else if v.getLsbD 15 then .negative
  else .positive

/-- cond as a one-hot 3-bit value: POSITIVE = 0b001, ZERO = 0b010, NEGATIVE = 0b100 (rule R17, decision D3). -/
def Cond.bits : Cond → BitVec 3
  | .positive => 0b001
  | .zero => 0b010
  | .negative => 0b100

/-- "(3-bit condition field & condition register) ≠ 0" (42_control.md rule R110). -/
def branchTaken (nzp : BitVec 3) (c : Cond) : Bool := decide (nzp &&& c.bits ≠ 0)

end Sys2Proof.Machine
end

