-- ==== Sys2Proof/Machine/Memory.lean ====
section
/-! DEFINITION. The memory array alone: `mem[a]` and its replacement, and the canonical form (20_memory.md rules R40 to
R44). The keyboard's side effects are in Ops.lean. -/

namespace Sys2Proof.Machine

/-- How many byte numbers the 65,536 two-byte cells take (rules R24 and R41). -/
def Memory.byteCount : Nat := 131072

/-- The canonical form: byte numbers strictly rise, exist, and no entry equals what an unlisted byte reads as. -/
abbrev Memory.wf (m : Memory) : Prop :=
  m.Pairwise (fun c d => c.1 < d.1) ∧ ∀ c ∈ m, c.1 < Memory.byteCount ∧ c.2 ≠ Config.unlistedByte

/-- The byte numbered `k`. -/
def Memory.getByte : Memory → Nat → Byte
  | [], _ => Config.unlistedByte
  | (j, v) :: rest, k => if j = k then v else Memory.getByte rest k

/-- Put an entry before the first one of a larger number. -/
def Memory.insertByte (k : Nat) (v : Byte) : Memory → Memory
  | [] => [(k, v)]
  | (j, u) :: rest => if k < j then (k, v) :: (j, u) :: rest else (j, u) :: Memory.insertByte k v rest

/-- Replace the byte numbered `k`, keeping the canonical form. -/
def Memory.putByte (m : Memory) (k : Nat) (v : Byte) : Memory :=
  let others := m.filter (fun c => c.1 ≠ k)
  if v = Config.unlistedByte then others else Memory.insertByte k v others

/-- The byte number of bits 15:8 of the cell at `a`. -/
def Memory.hiKey (a : Word) : Nat := 2 * a.toNat

/-- The byte number of bits 7:0 of the cell at `a`. -/
def Memory.loKey (a : Word) : Nat := 2 * a.toNat + 1

/-- `mem[a]`: the stored cell, without any side effect (00_scope.md rule R8). -/
def Memory.read (m : Memory) (a : Word) : Word :=
  m.getByte (Memory.hiKey a) ++ m.getByte (Memory.loKey a)

/-- `mem[a] <- v` (20_memory.md rule R44). -/
def Memory.write (m : Memory) (a v : Word) : Memory :=
  (m.putByte (Memory.hiKey a) (v.extractLsb' 8 8)).putByte (Memory.loKey a) (v.extractLsb' 0 8)

end Sys2Proof.Machine
end

