-- ==== Sys2Proof/Machine/Ops.lean ====
section
/-! DEFINITION. The named operations every meaning is built from: the register file (10_state.md rule R27), the memory
primitives and the keyboard poll (20_memory.md rules R43 to R47), the console capability (60_exceptions.md rules R160
to R164), the instruction fetch (40_cycle.md rule R91) and fault entry (60_exceptions.md rule R153). -/

namespace Sys2Proof.Machine

/-! ## Register file (10_state.md rules R11, R18, R27) -/

/-- `x[i]`. -/
def Gprs.get (g : Gprs) : Reg → Word
  | .r0 => g.x0
  | .r1 => g.x1
  | .r2 => g.x2
  | .r3 => g.x3
  | .r4 => g.x4
  | .r5 => g.x5
  | .r6 => g.x6
  | .r7 => g.x7

/-- `x[i] <- v`. -/
def Gprs.set (g : Gprs) (r : Reg) (v : Word) : Gprs :=
  match r with
  | .r0 => { g with x0 := v }
  | .r1 => { g with x1 := v }
  | .r2 => { g with x2 := v }
  | .r3 => { g with x3 := v }
  | .r4 => { g with x4 := v }
  | .r5 => { g with x5 := v }
  | .r6 => { g with x6 := v }
  | .r7 => { g with x7 := v }

/-- `x[i]` in a state. -/
def State.reg (s : State) (r : Reg) : Word := s.gprs.get r

/-- `x[i] <- v` in a state. -/
def State.setReg (s : State) (r : Reg) (v : Word) : State := { s with gprs := s.gprs.set r v }

/-- `pc <- v`. -/
def State.setPc (s : State) (v : Word) : State := { s with pc := v }

/-- `SetCC(i)`: the only way cond is written, "from the current value of the named register" (rule R18). -/
def State.setCC (s : State) (r : Reg) : State := { s with cond := signCond (s.reg r) }

/-- A register write followed by SetCC of that register, as every writer of cond does (rules R18, R19). -/
def State.writeResult (s : State) (r : Reg) (v : Word) : State := (s.setReg r v).setCC r

/-! ## Console capability (60_exceptions.md rules R161, R162, R164) -/

/-- `ConsoleAvail()`: kbd_in is not empty (rule R161). -/
def State.consoleAvail (s : State) : Bool := !s.kbdIn.isEmpty

/-- `ConsoleRead()`: the oldest waiting character, removed; `none` where no character is waiting and the step holds
(rules R162, R163). -/
def State.consoleRead (s : State) : Option (Byte × State) :=
  match s.kbdIn with
  | [] => none
  | c :: rest => some (c, { s with kbdIn := rest })

/-- `ConsoleWriteSeq(s)`: append the characters to con_out in order (rule R164). -/
def State.consoleWriteSeq (s : State) (cs : List Byte) : State := { s with conOut := s.conOut ++ cs }

/-- `ConsoleWrite(b)`: append one character to con_out (rule R164). -/
def State.consoleWrite (s : State) (b : Byte) : State := s.consoleWriteSeq [b]

/-- `zext_16(c)` (00_scope.md rule R8). -/
def zext16 (c : Byte) : Word := c.setWidth 16

/-! ## Memory primitives and the keyboard poll (20_memory.md rules R43 to R47) -/

/-- `MemWrite(a, 16, v)`: an unconditional store with no side effect at any address (rules R44, R49). -/
def State.memWrite (s : State) (a v : Word) : State := { s with mem := s.mem.write a v }

/-- `KbdPoll()` (rule R45): with a key waiting, bit 15 of the status cell is set, the others kept (rule R46,
decision D6), and the character is taken into the data cell (decision D7); with none, the status cell is cleared
(rule R47). -/
def State.kbdPoll (s : State) : State :=
  match s.consoleRead with
  | some (c, s') =>
    (s'.memWrite Config.mrKbsr (s'.mem.read Config.mrKbsr ||| 0x8000)).memWrite Config.mrKbdr (zext16 c)
  | none => s.memWrite Config.mrKbsr 0x0000

/-- `MemRead(a, 16)`: the stored cell, after a poll where `a` is the keyboard-status address (rule R43). -/
def State.memRead (s : State) (a : Word) : Word × State :=
  let s' := if a = Config.mrKbsr then s.kbdPoll else s
  (s'.mem.read a, s')

/-! ## Fetch (40_cycle.md rules R91, R92) -/

/-- The fetch: the word at pc, read through MemRead (decision D19), and the state with pc incremented. -/
def State.fetch (s : State) : Word × State :=
  let r := s.memRead s.pc
  (r.1, r.2.setPc (r.2.pc + 1))

/-- `ia`, the address the executing instruction was fetched from: pc holds `ia + 1` throughout Execute (rules R15,
R92). -/
def State.ia (s : State) : Word := s.pc - 1

/-! ## Taking a fault (60_exceptions.md rules R153, R154). There is no return from one (rule R157). -/

/-- `raise E(ia, info)`: the fault record is written and run becomes FAULTED; nothing else changes (rule R153). -/
def State.raise (s : State) (c : Condition) : State :=
  { s with fault := some { condition := c, addr := s.ia }, run := .faulted }

/-! ## The link (42_control.md rules R112, R113; 44_trap.md rule R130) -/

/-- "save PC into R7". -/
def State.link (s : State) : State := s.setReg .r7 s.pc

end Sys2Proof.Machine
end

