-- ==== Sys2Proof/Machine/Operands.lean ====
section
/-! DEFINITION. Immediates and the addressing modes (30_encoding.md rules R66, R67; 43_load_store.md rule R127). -/

namespace Sys2Proof.Machine

/-- `sext_n(v)`: "if bit n-1 is 1, set all bits from position n through 15 to 1; otherwise leave them 0"
(30_encoding.md rule R66), used at n = 5, 6, 9 and 11. -/
def sext {n : Nat} (v : BitVec n) : Word :=
  if v.getLsbD (n - 1) then v.setWidth 16 ||| ((0xFFFF : Word) <<< n) else v.setWidth 16

/-- PC-relative, 9-bit offset: `(pc + sext_9(PCoffset9)) mod 2^16`, pc being the incremented pc (rule R127). -/
def pcRel9 (s : State) (off : BitVec 9) : Word := s.pc + sext off

/-- PC-relative, 11-bit offset: `(pc + sext_11(PCoffset11)) mod 2^16` (42_control.md rule R112). -/
def pcRel11 (s : State) (off : BitVec 11) : Word := s.pc + sext off

/-- Base plus offset: `(x[BaseR] + sext_6(offset6)) mod 2^16` (rule R127). -/
def baseOff6 (s : State) (base : Reg) (off : BitVec 6) : Word := s.reg base + sext off

end Sys2Proof.Machine
end

