-- ==== Sys2Proof/Machine/Control.lean ====
section
/-! DEFINITION. BR, JMP, JSR, JSRR (42_control.md). `s.pc` is the incremented pc. -/

namespace Sys2Proof.Machine

/-- BR (rule R110): the branch is taken exactly when the condition field meets cond. -/
def execBr (nzp : BitVec 3) (off : BitVec 9) (s : State) : Host.Outcome State Fault Refusal :=
  .next (if branchTaken nzp s.cond then s.setPc (pcRel9 s off) else s)

/-- JMP, and RET as `JMP R7` (rule R111). -/
def execJmp (base : Reg) (s : State) : Host.Outcome State Fault Refusal :=
  .next (s.setPc (s.reg base))

/-- JSR (rule R112). -/
def execJsr (off : BitVec 11) (s : State) : Host.Outcome State Fault Refusal :=
  .next (s.link.setPc (pcRel11 s off))

/-- JSRR (rule R113): R7 is written first, so `JSRR R7` reads the value just saved (decision D18). -/
def execJsrr (base : Reg) (s : State) : Host.Outcome State Fault Refusal :=
  .next (s.link.setPc (s.link.reg base))

end Sys2Proof.Machine
end

