-- ==== Sys2Proof/Machine/LoadStore.lean ====
section
/-! DEFINITION. LD, LDI, LDR, LEA, ST, STI, STR (43_load_store.md). `s.pc` is the incremented pc. -/

namespace Sys2Proof.Machine

/-- One read into a register and the flags: the common end of LD, LDI and LDR. -/
def State.loadFrom (s : State) (dr : Reg) (ea : Word) : State :=
  (s.memRead ea).2.writeResult dr (s.memRead ea).1

/-- LD (rule R120). -/
def execLd (dr : Reg) (off : BitVec 9) (s : State) : Host.Outcome State Fault Refusal :=
  .next (s.loadFrom dr (pcRel9 s off))

/-- LDI (rule R121): the pointer's read, then the datum's. -/
def execLdi (dr : Reg) (off : BitVec 9) (s : State) : Host.Outcome State Fault Refusal :=
  let ptr := s.memRead (pcRel9 s off)
  .next (ptr.2.loadFrom dr ptr.1)

/-- LDR (rule R122). -/
def execLdr (dr base : Reg) (off : BitVec 6) (s : State) : Host.Outcome State Fault Refusal :=
  .next (s.loadFrom dr (baseOff6 s base off))

/-- LEA (rule R123): no memory access; cond is written from the address. -/
def execLea (dr : Reg) (off : BitVec 9) (s : State) : Host.Outcome State Fault Refusal :=
  .next (s.writeResult dr (pcRel9 s off))

/-- ST (rule R124). -/
def execSt (sr : Reg) (off : BitVec 9) (s : State) : Host.Outcome State Fault Refusal :=
  .next (s.memWrite (pcRel9 s off) (s.reg sr))

/-- STI (rule R125): the pointer's read, then the store. -/
def execSti (sr : Reg) (off : BitVec 9) (s : State) : Host.Outcome State Fault Refusal :=
  let ptr := s.memRead (pcRel9 s off)
  .next (ptr.2.memWrite ptr.1 (ptr.2.reg sr))

/-- STR (rule R126). -/
def execStr (sr base : Reg) (off : BitVec 6) (s : State) : Host.Outcome State Fault Refusal :=
  .next (s.memWrite (baseOff6 s base off) (s.reg sr))

end Sys2Proof.Machine
end

