-- ==== Sys2Proof/Machine/Operate.lean ====
section
/-! DEFINITION. ADD, AND, NOT (41_operate.md). Sources are read before the destination is written (rule R100). -/

namespace Sys2Proof.Machine

/-- ADD, register form (rule R101). -/
def execAdd (dr sr1 sr2 : Reg) (s : State) : Host.Outcome State Fault Refusal :=
  .next (s.writeResult dr (s.reg sr1 + s.reg sr2))

/-- ADD, immediate form (rule R101). -/
def execAddi (dr sr1 : Reg) (imm : BitVec 5) (s : State) : Host.Outcome State Fault Refusal :=
  .next (s.writeResult dr (s.reg sr1 + sext imm))

/-- AND, register form (rule R102). -/
def execAnd (dr sr1 sr2 : Reg) (s : State) : Host.Outcome State Fault Refusal :=
  .next (s.writeResult dr (s.reg sr1 &&& s.reg sr2))

/-- AND, immediate form (rule R102). -/
def execAndi (dr sr1 : Reg) (imm : BitVec 5) (s : State) : Host.Outcome State Fault Refusal :=
  .next (s.writeResult dr (s.reg sr1 &&& sext imm))

/-- NOT (rule R103). -/
def execNot (dr sr : Reg) (s : State) : Host.Outcome State Fault Refusal :=
  .next (s.writeResult dr (s.reg sr ^^^ 0xFFFF))

end Sys2Proof.Machine
end

