-- ==== Sys2Proof/Machine/Reserved.lean ====
section
/-! DEFINITION. The two illegal opcodes RTI and RES (45_reserved.md): each takes the IllegalOpcode fault, recording the
full instruction word (60_exceptions.md rule R151). -/

namespace Sys2Proof.Machine

/-- RTI, opcode 1000 (rule R140). -/
def execRti (low : BitVec 12) (s : State) : Host.Outcome State Fault Refusal :=
  .next (s.raise (.illegalOpcode (Config.opcodeMap.symm .rti ++ low)))

/-- RES, opcode 1101 (rule R141). -/
def execRes (low : BitVec 12) (s : State) : Host.Outcome State Fault Refusal :=
  .next (s.raise (.illegalOpcode (Config.opcodeMap.symm .res ++ low)))

end Sys2Proof.Machine
end

