-- ==== Sys2Proof/Machine/Trap.lean ====
section
/-! DEFINITION. TRAP and the six built-in routines (44_trap.md), and the hold of a console read (60_exceptions.md rule
R163). Each routine runs inside the one step of its TRAP, after R7 has received the incremented pc (rule R130). -/

namespace Sys2Proof.Machine

/-! ## Console reads that can hold -/

/-- The part of GETC from its console read on (rule R131); `none` while no character is waiting. -/
def State.getcRead (s : State) : Option State :=
  match s.consoleRead with
  | some (c, s') => some (s'.writeResult .r0 (zext16 c))
  | none => none

/-- The part of IN from its console read on (rule R134): read, echo, write R0, SetCC(0) (decision D14); `none` while
no character is waiting. -/
def State.inputRead (s : State) : Option State :=
  match s.consoleRead with
  | some (c, s') => some ((s'.consoleWrite c).writeResult .r0 (zext16 c))
  | none => none

/-- The rest of a held routine. -/
def State.waitedRead (s : State) : ConsoleWait → Option State
  | .getc => s.getcRead
  | .input => s.inputRead

/-- Complete a routine's console read, or hold in it: "the effects of the step that precede the read have happened …
and those after it have not" (rule R163). -/
def readOrHold (w : ConsoleWait) (s : State) : Host.Outcome State Fault Refusal :=
  match s.waitedRead w with
  | some s' => .next s'
  | none => .next { s with hold := some w }

/-- One step of a held machine: the routine completes if the host has appended a character, and otherwise nothing
changes, "this is a hang and not a fault, and the run is not over" (rule R163). -/
def resumeHold (w : ConsoleWait) (s : State) : Host.Outcome State Fault Refusal :=
  match s.waitedRead w with
  | some s' => .next { s' with hold := none }
  | none => .next s

/-! ## String walks (rules R133, R135) -/

/-- PUTS writes the low 8 bits of each word (rule R133, decision D10). -/
def putsChars (w : Word) : List Byte := [w.extractLsb' 0 8]

/-- PUTSP writes the low byte, then the high byte if it is not zero (rule R135, decision D30). -/
def putspChars (w : Word) : List Byte :=
  if w.extractLsb' 8 8 = 0x00#8 then [w.extractLsb' 0 8] else [w.extractLsb' 0 8, w.extractLsb' 8 8]

/-- The loop of PUTS and PUTSP from address `a`: each word is read through MemRead (decision D11) and the loop ends at
a whole word of zero. The first argument bounds the reads left; `none` if they do not suffice. -/
def walk (chars : Word → List Byte) : Nat → Word → State → Option State
  | 0, _, _ => none
  | n + 1, a, s =>
    let r := s.memRead a
    if r.1 = 0x0000 then some r.2
    else walk chars n (a + 1) (r.2.consoleWriteSeq (chars r.1))

/-- "The walk makes at most (length of kbd_in + 1) × 65,536 reads" (rule R133). -/
def walkBound (s : State) : Nat := (s.kbdIn.length + 1) * 65536

/-- The walk from the address in R0, which it does not modify (decision D24). -/
def walkFromR0 (chars : Word → List Byte) (s : State) : Host.Outcome State Fault Refusal :=
  match walk chars (walkBound s) (s.reg .r0) s with
  | some s' => .next s'
  | none => .fault .walkUnfinished

/-! ## The routines, after the link -/

/-- GETC (rule R131). -/
def routineGetc (s : State) : Host.Outcome State Fault Refusal := readOrHold .getc s

/-- OUT (rule R132). -/
def routineOut (s : State) : Host.Outcome State Fault Refusal :=
  .next (s.consoleWrite ((s.reg .r0).extractLsb' 0 8))

/-- PUTS (rule R133). -/
def routinePuts (s : State) : Host.Outcome State Fault Refusal := walkFromR0 putsChars s

/-- IN (rule R134): the prompt is written before the read, so it appears even while the read holds. -/
def routineInput (s : State) : Host.Outcome State Fault Refusal :=
  readOrHold .input (s.consoleWriteSeq Config.inPrompt)

/-- PUTSP (rule R135). -/
def routinePutsp (s : State) : Host.Outcome State Fault Refusal := walkFromR0 putspChars s

/-- HALT (rule R136). -/
def routineHalt (s : State) : Host.Outcome State Fault Refusal :=
  .next { s.consoleWriteSeq Config.haltNotice with run := .halted }

/-! ## The instructions -/

/-- TRAP x20 (rules R130, R131). -/
def execGetc (s : State) : Host.Outcome State Fault Refusal := routineGetc s.link

/-- TRAP x21 (rules R130, R132). -/
def execOut (s : State) : Host.Outcome State Fault Refusal := routineOut s.link

/-- TRAP x22 (rules R130, R133). -/
def execPuts (s : State) : Host.Outcome State Fault Refusal := routinePuts s.link

/-- TRAP x23 (rules R130, R134). -/
def execInput (s : State) : Host.Outcome State Fault Refusal := routineInput s.link

/-- TRAP x24 (rules R130, R135). -/
def execPutsp (s : State) : Host.Outcome State Fault Refusal := routinePutsp s.link

/-- TRAP x25 (rules R130, R136). -/
def execHalt (s : State) : Host.Outcome State Fault Refusal := routineHalt s.link

/-- TRAP (rule R130): the link, then the dispatch by vector; every vector that names no routine raises
IllegalTrapVector with x[7] already written (rule R137, decision D16). -/
def execTrap (vect : Byte) (s : State) : Host.Outcome State Fault Refusal :=
  let s' := s.link
  match vect.toNat with
  | 0x20 => routineGetc s'
  | 0x21 => routineOut s'
  | 0x22 => routinePuts s'
  | 0x23 => routineInput s'
  | 0x24 => routinePutsp s'
  | 0x25 => routineHalt s'
  | _ => .next (s'.raise (.illegalTrapVector vect))

end Sys2Proof.Machine
end

