-- ==== Sys2Proof/Machine/Dispatch.lean ====
section
/-! DEFINITION. `Execute` of 40_cycle.md rule R93, "matched exhaustively": `s` is the state after the fetch, its pc
already incremented (rule R92). -/

namespace Sys2Proof.Machine

def exec (i : Instr) (s : State) : Host.Outcome State Fault Refusal :=
  match i with
  | .br nzp off => Sys2Proof.Machine.execBr nzp off s
  | .add dr sr1 sr2 => Sys2Proof.Machine.execAdd dr sr1 sr2 s
  | .addi dr sr1 imm => Sys2Proof.Machine.execAddi dr sr1 imm s
  | .ld dr off => Sys2Proof.Machine.execLd dr off s
  | .st sr off => Sys2Proof.Machine.execSt sr off s
  | .jsrr base => Sys2Proof.Machine.execJsrr base s
  | .jsr off => Sys2Proof.Machine.execJsr off s
  | .and dr sr1 sr2 => Sys2Proof.Machine.execAnd dr sr1 sr2 s
  | .andi dr sr1 imm => Sys2Proof.Machine.execAndi dr sr1 imm s
  | .ldr dr base off => Sys2Proof.Machine.execLdr dr base off s
  | .str sr base off => Sys2Proof.Machine.execStr sr base off s
  | .rti low => Sys2Proof.Machine.execRti low s
  | .not dr sr => Sys2Proof.Machine.execNot dr sr s
  | .ldi dr off => Sys2Proof.Machine.execLdi dr off s
  | .sti sr off => Sys2Proof.Machine.execSti sr off s
  | .jmp base => Sys2Proof.Machine.execJmp base s
  | .res low => Sys2Proof.Machine.execRes low s
  | .lea dr off => Sys2Proof.Machine.execLea dr off s
  | .getc => Sys2Proof.Machine.execGetc s
  | .out => Sys2Proof.Machine.execOut s
  | .puts => Sys2Proof.Machine.execPuts s
  | .input => Sys2Proof.Machine.execInput s
  | .putsp => Sys2Proof.Machine.execPutsp s
  | .halt => Sys2Proof.Machine.execHalt s
  | .trap vect => Sys2Proof.Machine.execTrap vect s

end Sys2Proof.Machine
end

