-- ==== Sys2Proof/Machine/Step.lean ====
section
/-! DEFINITION. One step of the run loop (40_cycle.md), and how the host places an instruction where it is fetched. -/

namespace Sys2Proof.Machine

/-- `Step()` (rules R90, R91): enabled exactly when run = RUNNING; fetch, increment, decode, execute; a machine that
holds in a console read goes on with that read (60_exceptions.md rule R163). -/
def step (s : State) : Host.Outcome State Fault Refusal :=
  match s.run with
  | .halted => .fault .runHalted
  | .faulted => .fault (.runFaulted s.fault)
  | .running =>
    match s.hold with
    | some w => resumeHold w s
    | none => exec (decode s.fetch.1) s.fetch.2

/-- The instruction of `nbits` bits `w` stored at pc, in a machine that is running and not held, so that the next step
fetches and runs it. It stands for the external loader (70_reset_and_hazards.md rule R184; log entry 9). Where pc is
MR_KBSR no stored word is fetched as it stands, since that fetch polls (20_memory.md rule R50). -/
def State.withFetchWord (s : State) (nbits w : Nat) : State :=
  { s with mem := s.mem.write s.pc (BitVec.ofNat 16 (w % 2 ^ nbits)), run := .running, hold := none }

end Sys2Proof.Machine
end

