-- ==== Sys2Proof/Machine/HostInterface.lean ====
section
/-! DEFINITION. What the host does to CORE from outside: it loads images before the first step
(70_reset_and_hazards.md rules R184 to R187) and types keys between steps or during a hold (60_exceptions.md rules R163
and R166). -/

namespace Sys2Proof.Machine

/-! ## The image loader's contract -/

/-- An image: "the first word is the origin address; subsequent words are loaded sequentially into Memory starting at
that address" (rule R184). -/
structure Image where
  origin : Word
  words : List Word
  deriving DecidableEq, Repr

/-- A byte stream as big-endian words: word k is byte[2k] × 256 + byte[2k+1] (rule R184). `none` for an odd number of
bytes: THE MODEL'S CHOICE, the spec leaves it undecided (decision D26; log entry 8). -/
def wordsOfBytes : List Byte → Option (List Word)
  | [] => some []
  | [_] => none
  | hi :: lo :: rest => (wordsOfBytes rest).map (fun ws => (hi ++ lo) :: ws)

/-- The image a file holds. What the loader does with a malformed file the spec does not say (rule R185), so these are THE
MODEL'S CHOICE (log entry 8): a file with no origin word gives `none`, and one with an origin word and no data the image
of no words, which loads nothing. -/
def Image.ofBytes (bytes : List Byte) : Option Image :=
  match wordsOfBytes bytes with
  | some (origin :: words) => some { origin, words }
  | _ => none

/-- Store words at consecutive addresses from `k`, stopping "at end of stream or when the address space is exhausted":
the loader does not wrap around (rule R185). -/
def Memory.storeFrom : Nat → List Word → Memory → Memory
  | _, [], m => m
  | k, w :: ws, m => if k < 65536 then Memory.storeFrom (k + 1) ws (m.write (BitVec.ofNat 16 k) w) else m

/-- Load one image: word k of the file, k ≥ 1, goes to address origin + (k - 1) (rule R185). -/
def Memory.loadImage (m : Memory) (img : Image) : Memory := Memory.storeFrom img.origin.toNat img.words m

/-- INIT_MEM: zero-filled, then each image loaded in the order supplied, a later one overwriting (rules R31, R186). -/
def Memory.ofImages (images : List Image) : Memory := images.foldl Memory.loadImage []

/-- The launch state of a machine invoked with images (rule R180). -/
def State.boot (gprReset : Gprs) (images : List Image) (kbdIn : List Byte) : State :=
  State.launch gprReset (Memory.ofImages images) kbdIn

/-! ## Keys -/

/-- The host appends characters to kbd_in (rules R25, R166). -/
def State.typeKeys (s : State) (cs : List Byte) : State := { s with kbdIn := s.kbdIn ++ cs }

end Sys2Proof.Machine
end

