-- ==== Sys2Proof/Safety.lean ====
section
/-! DEFINITION. The terms claims are stated in: what an instruction leaves unchanged, which instructions write
cond or pc or run a trap routine, and the invariant of a well-formed state. -/

namespace Sys2Proof.Machine

/-- Every general register outside `written` is unchanged. -/
def SameRegsBut (written : List Reg) (s t : State) : Prop := ∀ r, r ∉ written → t.reg r = s.reg r

/-- Every cell of memory outside `written` reads as before. -/
def SameMemBut (written : List Word) (s t : State) : Prop := ∀ a, a ∉ written → t.mem.read a = s.mem.read a

/-- Nothing was typed, consumed or written on the console. -/
def SameConsole (s t : State) : Prop := t.kbdIn = s.kbdIn ∧ t.conOut = s.conOut

/-- The run state, the fault record and the hold, which is the model's own field (log entry 5), are unchanged. -/
def SameControl (s t : State) : Prop := t.run = s.run ∧ t.fault = s.fault ∧ t.hold = s.hold

/-- A condition code says the sign of a word, read as a 16-bit two's-complement integer (10_state.md rule R18). -/
def CondMatches (c : Cond) (v : Word) : Prop :=
  (c = .zero ↔ v.toInt = 0) ∧ (c = .negative ↔ v.toInt < 0) ∧ (c = .positive ↔ 0 < v.toInt)

/-- `t` is `s` after one MemRead at `ea` whose word went to `dr` and to the flags: what LD, LDI's second read and LDR
do (43_load_store.md rules R120 to R122). Where `ea` is not the status address, that read changes nothing. -/
def LoadsFrom (ea : Word) (dr : Reg) (s t : State) : Prop :=
  t.reg dr = (s.memRead ea).1 ∧ CondMatches t.cond (s.memRead ea).1 ∧ SameRegsBut [dr] s t ∧ t.pc = s.pc ∧
  SameMemBut [] (s.memRead ea).2 t ∧ SameConsole (s.memRead ea).2 t ∧ SameControl s t ∧
  (ea ≠ Config.mrKbsr → t.reg dr = s.mem.read ea ∧ SameMemBut [] s t ∧ SameConsole s t)

/-- The register whose sign cond takes, for the instructions that call SetCC (10_state.md rule R19). -/
def condDest : Instr → Option Reg
  | .br _ _ => none
  | .add dr _ _ => some dr
  | .addi dr _ _ => some dr
  | .ld dr _ => some dr
  | .st _ _ => none
  | .jsrr _ => none
  | .jsr _ => none
  | .and dr _ _ => some dr
  | .andi dr _ _ => some dr
  | .ldr dr _ _ => some dr
  | .str _ _ _ => none
  | .rti _ => none
  | .not dr _ => some dr
  | .ldi dr _ => some dr
  | .sti _ _ => none
  | .jmp _ => none
  | .res _ => none
  | .lea dr _ => some dr
  | .getc => some .r0
  | .out => none
  | .puts => none
  | .input => some .r0
  | .putsp => none
  | .halt => none
  | .trap _ => none

/-- The instructions that write pc: BR, JMP, JSR and JSRR (10_state.md rule R15). -/
def WritesPc : Instr → Bool
  | .br _ _ => true
  | .add _ _ _ => false
  | .addi _ _ _ => false
  | .ld _ _ => false
  | .st _ _ => false
  | .jsrr _ => true
  | .jsr _ => true
  | .and _ _ _ => false
  | .andi _ _ _ => false
  | .ldr _ _ _ => false
  | .str _ _ _ => false
  | .rti _ => false
  | .not _ _ => false
  | .ldi _ _ => false
  | .sti _ _ => false
  | .jmp _ => true
  | .res _ => false
  | .lea _ _ => false
  | .getc => false
  | .out => false
  | .puts => false
  | .input => false
  | .putsp => false
  | .halt => false
  | .trap _ => false

/-- The vector of TRAP, in all its rows; `none` for every other instruction (44_trap.md rule R130). -/
def trapVector : Instr → Option Byte
  | .br _ _ => none
  | .add _ _ _ => none
  | .addi _ _ _ => none
  | .ld _ _ => none
  | .st _ _ => none
  | .jsrr _ => none
  | .jsr _ => none
  | .and _ _ _ => none
  | .andi _ _ _ => none
  | .ldr _ _ _ => none
  | .str _ _ _ => none
  | .rti _ => none
  | .not _ _ => none
  | .ldi _ _ => none
  | .sti _ _ => none
  | .jmp _ => none
  | .res _ => none
  | .lea _ _ => none
  | .getc => some 0x20
  | .out => some 0x21
  | .puts => some 0x22
  | .input => some 0x23
  | .putsp => some 0x24
  | .halt => some 0x25
  | .trap vect => some vect

/-- The bits of a word that no field of its variant takes (30_encoding.md rules R63 and R65). In RTI and RES the low
bits change nothing but the fault record, which holds them (rule R140), so none is listed. -/
def ignoredBits (w : Word) : Word :=
  match Config.opcodeMap (field 12 4 w) with
  | .add | .and => if w.getLsbD 5 then 0x0000 else 0x0018
  | .jsr => if w.getLsbD 11 then 0x0000 else 0x063F
  | .not => 0x003F
  | .jmp => 0x0E3F
  | .trap => 0x0F00
  | .br | .ld | .st | .ldr | .str | .rti | .ldi | .sti | .res | .lea => 0x0000

/-- A state as every run has it: memory is in its canonical form, a fault record stands exactly when run = FAULTED
(10_state.md rules R23, R32), and only a running machine holds (60_exceptions.md rule R163). That cond is one of its
three values and that every register is a word, the types say. -/
abbrev State.wf (s : State) : Prop :=
  s.mem.wf ∧ (s.fault.isSome = true ↔ s.run = .faulted) ∧ (s.hold.isSome = true → s.run = .running)

end Sys2Proof.Machine
end

