-- ==== Sys2Proof/Certificates/Slice0/Obligations.lean ====
section
/-! DEFINITION. The statements for the provers, each a formal reading of the rules its docstring names. -/

open Sys2Proof Sys2Proof.Machine

/-! ## Encoding and decoding (30_encoding.md) -/

/-- Every well-formed instruction, every operand at every value, is read back from its word (rules R69, R77).
Well-formedness shuts out only `trap` with the vector of a routine, which has a row of its own (DESIGN CHOICE, log
entry 20). The numbers and positions that both use are decisions D1 and D2 (PRESUMED, log entry 6). -/
def Obligations.DecodeInvertsEncode : Prop :=
  ∀ i : Instr, i.wellFormed = true → decode (encode i) = i

/-- Decode answers a well-formed instruction for all 65,536 words, and the word of that instruction decodes to it
again (rules R68, R69). The word need not be the same one, since ignored bits are not checked (decision D4; DEDUCED,
log entry 7); the opcode numbers are D1 (PRESUMED, log entry 6). -/
def Obligations.DecodeIsTotalAndWellFormed : Prop :=
  ∀ w : Word, (decode w).wellFormed = true ∧ decode (encode (decode w)) = decode w

/-- "two words that differ only in ignored bits decode to the same variant and execute identically" (rule R65). That
such bits are not checked is decision D4, read from the source's silence (DEDUCED, log entry 7). -/
def Obligations.IgnoredBitsDoNotMatter : Prop :=
  ∀ w v : Word, (w ^^^ v) &&& ~~~ (ignoredBits w) = 0 →
    decode w = decode v ∧ ∀ s : State, exec (decode w) s = exec (decode v) s

/-- The illegal opcodes are exactly the words 0x8000 to 0x8FFF and 0xD000 to 0xDFFF, and executing either raises
IllegalOpcode whatever the other bits (rule R71), recorded with the word and the address it was fetched from (rules R151
and R153). Which two values are illegal R71 takes from general knowledge (PRESUMED, log entry 6); the record and its
address are DEDUCED (log entries 11 and 13). -/
def Obligations.IllegalOpcodeWordsRaise : Prop :=
  (∀ w : Word, (∃ low, decode w = .rti low) ↔ 0x8000 ≤ w.toNat ∧ w.toNat ≤ 0x8FFF) ∧
  (∀ w : Word, (∃ low, decode w = .res low) ↔ 0xD000 ≤ w.toNat ∧ w.toNat ≤ 0xDFFF) ∧
  (∀ (w : Word) (s : State), (field 12 4 w = 0b1000 ∨ field 12 4 w = 0b1101) →
    ∃ t, exec (decode w) s = .next t ∧ t.run = .faulted ∧ t.fault = some ⟨.illegalOpcode w, s.pc - 1⟩)

/-- Of the TRAP words, those whose low byte is 0x20 to 0x25 do not fault and all others raise IllegalTrapVector, with
bits 11:8 ignored (rule R72). The cause of its own and the record with the address pc - 1 are decisions D15 and D16
(DEDUCED, log entries 11 and 13). That GETC and IN with no character waiting answer a next state is THE MODEL'S CHOICE
(log entry 5). That opcode 1111 is TRAP is from general knowledge, decision D1 (PRESUMED, log entry 6), and that bits
11:8 are ignored is decision D4 (DEDUCED, log entry 7). -/
def Obligations.TrapVectorsNameSixRoutines : Prop :=
  ∀ (w : Word) (s : State), field 12 4 w = 0b1111 → ∃ t, exec (decode w) s = .next t ∧
    (0x20 ≤ (field 0 8 w).toNat ∧ (field 0 8 w).toNat ≤ 0x25 → t.fault = s.fault ∧ (s.run = .running → t.run ≠ .faulted)) ∧
    (¬ (0x20 ≤ (field 0 8 w).toNat ∧ (field 0 8 w).toNat ≤ 0x25) →
      t.run = .faulted ∧ t.fault = some ⟨.illegalTrapVector (field 0 8 w), s.pc - 1⟩)

/-- Words written out from the formats of rule R63 and the opcode numbers of rule R70, one or more of every family,
decode to the instructions they stand for. The opcode numbers and field positions are from general knowledge,
decisions D1 to D3 (PRESUMED, log entry 6). -/
def Obligations.SampleWordsDecode : Prop :=
  decode 0b0001000001000010 = .add .r0 .r1 .r2 ∧
  decode 0b0101011001110000 = .andi .r3 .r1 0b10000 ∧
  decode 0b1001000001111111 = .not .r0 .r1 ∧
  decode 0b0000010000000101 = .br 0b010 5 ∧
  decode 0b0100100000000100 = .jsr 4 ∧
  decode 0b0100000111000000 = .jsrr .r7 ∧
  decode 0b1100000111000000 = .jmp .r7 ∧
  decode 0b1010000000000001 = .ldi .r0 1 ∧
  decode 0b0111001110000001 = .str .r1 .r6 1 ∧
  decode 0b1111000000100101 = .halt ∧
  decode 0b1111000000100110 = .trap 0x26 ∧
  decode 0b1101101010111100 = .res 0xABC

/-- "given a value occupying the low n bits of a word, if bit n-1 is 1, set all bits from position n through 15 to 1;
otherwise leave them 0", and the signed value is preserved, for n in 5, 6, 9, 11 (rule R66). -/
def Obligations.SignExtensionPreservesValue : Prop :=
  (∀ v : BitVec 5, (sext v).toInt = v.toInt ∧ ∀ i < 16, (sext v).getLsbD i = v.getLsbD (min i 4)) ∧
  (∀ v : BitVec 6, (sext v).toInt = v.toInt ∧ ∀ i < 16, (sext v).getLsbD i = v.getLsbD (min i 5)) ∧
  (∀ v : BitVec 9, (sext v).toInt = v.toInt ∧ ∀ i < 16, (sext v).getLsbD i = v.getLsbD (min i 8)) ∧
  (∀ v : BitVec 11, (sext v).toInt = v.toInt ∧ ∀ i < 16, (sext v).getLsbD i = v.getLsbD (min i 10))

/-! ## Reset and the image contract (10_state.md, 70_reset_and_hazards.md) -/

/-- The launch state, for every GPR_RESET, every list of images and whatever keys wait: pc at PC_START = 0x3000
whatever the images' origins, cond ZERO, run RUNNING with no fault record, the registers GPR_RESET, memory what the
images make, the keys waiting, nothing written (rules R28 to R33; R33 is decision D8, log entry 18). The clause on
`hold` is about THE MODEL'S own field (log entry 5). That the start address is fixed at 0x3000 is decision D21
(DEDUCED, log entry 21). -/
def Obligations.ResetEstablishesLaunchState : Prop :=
  ∀ (g : Gprs) (images : List Image) (keys : List Byte),
    let s := State.boot g images keys
    s.pc = 0x3000 ∧ s.cond = .zero ∧ s.run = .running ∧ s.fault = none ∧ s.conOut = [] ∧ s.kbdIn = keys ∧
    s.hold = none ∧ s.gprs = g ∧ s.mem = Memory.ofImages images

/-- `State.reset` is the launch state with no image and no key, and every cell of its memory reads 0x0000 (rule R31);
its general registers hold zero, THE MODEL'S CHOICE and no rule of the spec (log entry 1). -/
def Obligations.ResetIsLaunchWithNothingLoaded : Prop :=
  (∃ g : Gprs, State.reset = State.boot g [] [] ∧ ∀ r : Reg, g.get r = 0x0000) ∧
  ∀ a : Word, State.reset.mem.read a = 0x0000

/-- Word k of an image's words is stored at origin + k, "the loader does not wrap around to address 0x0000", words
beyond 0xFFFF are dropped, and no other cell changes (rule R185). -/
def Obligations.ImageWordsArePlacedInSequence : Prop :=
  ∀ (m : Memory) (img : Image) (a : Word),
    (img.origin.toNat ≤ a.toNat ∧ a.toNat < img.origin.toNat + img.words.length →
      (m.loadImage img).read a = img.words.getD (a.toNat - img.origin.toNat) 0) ∧
    (¬ (img.origin.toNat ≤ a.toNat ∧ a.toNat < img.origin.toNat + img.words.length) →
      (m.loadImage img).read a = m.read a)

/-- Images are loaded in sequence, a later one over the earlier ones, and a cell no image covers stays 0x0000 (rule
R186). -/
def Obligations.LaterImagesOverwriteEarlier : Prop :=
  (∀ (images : List Image) (img : Image),
    Memory.ofImages (images ++ [img]) = (Memory.ofImages images).loadImage img) ∧
  (∀ (images : List Image) (a : Word),
    (∀ img ∈ images, ¬ (img.origin.toNat ≤ a.toNat ∧ a.toNat < img.origin.toNat + img.words.length)) →
    (Memory.ofImages images).read a = 0x0000)

/-- "a big-endian stream of 16-bit words; the first word is the origin address": word k is byte[2k] × 256 + byte[2k+1]
(rule R184). A file of odd length or with no origin word gives no image: THE MODEL'S CHOICE (log entry 8). So is the
third case of that entry: two bytes, an origin word and no data, give the image of no words. -/
def Obligations.ImageFileIsBigEndian : Prop :=
  (∀ (bytes : List Byte) (img : Image), Image.ofBytes bytes = some img →
    bytes.length = 2 * (img.words.length + 1) ∧
    ∀ k ≤ img.words.length,
      ((img.origin :: img.words).getD k 0).toNat = (bytes.getD (2 * k) 0).toNat * 256 + (bytes.getD (2 * k + 1) 0).toNat) ∧
  (∀ bytes : List Byte, (∃ img, Image.ofBytes bytes = some img) ↔ bytes.length % 2 = 0 ∧ bytes ≠ [])

/-! ## Memory and the keyboard (20_memory.md) -/

/-- MemWrite replaces the addressed cell and nothing else, at every address (rule R44). The frame's clause on `hold`
is about THE MODEL'S own field (log entry 5). -/
def Obligations.MemWriteStoresOneCell : Prop :=
  ∀ (s : State) (a v : Word),
    let t := s.memWrite a v
    t.mem.read a = v ∧ SameMemBut [a] s t ∧ SameRegsBut [] s t ∧ t.pc = s.pc ∧ t.cond = s.cond ∧ SameConsole s t ∧
    SameControl s t

/-- MemRead answers the stored cell; only at the keyboard-status address does it poll first (rule R43). -/
def Obligations.MemReadPollsOnlyAtStatusAddress : Prop :=
  ∀ (s : State) (a : Word),
    (a ≠ Config.mrKbsr → s.memRead a = (s.mem.read a, s)) ∧
    (a = Config.mrKbsr → s.memRead a = (s.kbdPoll.mem.read Config.mrKbsr, s.kbdPoll))

/-- A poll that finds a key: bit 15 of the status cell is set and bits 14:0 kept, the oldest character is taken into
the data cell, zero-extended, and nothing else changes (rule R46). That the bits are kept is decision D6, that the
character is consumed and is 8 bits decisions D7 and D9 (DEDUCED, log entry 14). The frame's clause on `hold` is about
THE MODEL'S own field (log entry 5). -/
def Obligations.PollTakesWaitingKey : Prop :=
  ∀ (s : State) (c : Byte) (rest : List Byte), s.kbdIn = c :: rest →
    let t := s.kbdPoll
    (t.mem.read Config.mrKbsr).getLsbD 15 = true ∧
    (∀ i < 15, (t.mem.read Config.mrKbsr).getLsbD i = (s.mem.read Config.mrKbsr).getLsbD i) ∧
    (t.mem.read Config.mrKbdr).toNat = c.toNat ∧ t.kbdIn = rest ∧ SameMemBut [Config.mrKbsr, Config.mrKbdr] s t ∧
    SameRegsBut [] s t ∧ t.pc = s.pc ∧ t.cond = s.cond ∧ t.conOut = s.conOut ∧ SameControl s t

/-- A poll that finds no key clears the whole status cell and changes nothing else (rule R47). The frame's clause on
`hold` is about THE MODEL'S own field (log entry 5). -/
def Obligations.PollWithoutKeyClearsStatus : Prop :=
  ∀ s : State, s.kbdIn = [] →
    let t := s.kbdPoll
    t.mem.read Config.mrKbsr = 0x0000 ∧ SameMemBut [Config.mrKbsr] s t ∧ SameRegsBut [] s t ∧ t.pc = s.pc ∧
    t.cond = s.cond ∧ SameConsole s t ∧ SameControl s t

/-- Stores to the keyboard cells are plain; the next read of the status address polls over what was stored, and a
value stored to the data address is read back with no poll (rules R48, R49). Plain stores and a plain read of the data
cell are decision D29 (DEDUCED, log entry 22), and that a poll keeps the other bits of what was stored is D6 (DEDUCED,
log entry 14). -/
def Obligations.StoresToKeyboardCellsArePlain : Prop :=
  ∀ (s : State) (v : Word),
    ((s.memWrite Config.mrKbdr v).memRead Config.mrKbdr = (v, s.memWrite Config.mrKbdr v)) ∧
    (s.kbdIn = [] → ((s.memWrite Config.mrKbsr v).memRead Config.mrKbsr).1 = 0x0000) ∧
    (s.kbdIn ≠ [] → ((s.memWrite Config.mrKbsr v).memRead Config.mrKbsr).1 = v ||| 0x8000)

/-- The canonical form is canonical: two memories in it that read alike at every address are equal data. That memory is
held so is THE MODEL'S choice (log entry 2). -/
def Obligations.CanonicalMemoriesThatReadAlikeAreEqual : Prop :=
  ∀ m n : Memory, m.wf → n.wf → (∀ a : Word, m.read a = n.read a) → m = n

/-! ## The step (40_cycle.md) -/

/-- One step of a running machine that does not hold: MemRead at pc, pc incremented, and exec of the instruction the
word decodes to (rule R91); from any address but MR_KBSR the fetch changes pc alone. That the fetch is a MemRead,
which polls at MR_KBSR, is decision D19 (DEDUCED, log entry 15); that exec takes the state after the fetch is log
entry 13 (DEDUCED); the premise on `hold` is about THE MODEL'S own field (log entry 5). -/
def Obligations.StepRunsTheDecodedInstruction : Prop :=
  ∀ s : State, s.run = .running → s.hold = none →
    step s = exec (decode (s.memRead s.pc).1) { (s.memRead s.pc).2 with pc := s.pc + 1 } ∧
    (s.pc ≠ Config.mrKbsr → step s = exec (decode (s.mem.read s.pc)) { s with pc := s.pc + 1 })

/-- "A step is enabled exactly when run = RUNNING": then it answers a next state, and in HALTED or FAULTED it does not
(rule R90). That a machine held in a console read answers a next state too is THE MODEL'S CHOICE (log entry 5). -/
def Obligations.StepIsEnabledExactlyWhenRunning : Prop :=
  ∀ s : State, (∃ t, step s = .next t) ↔ s.run = .running

/-- What the host receives of an ended run: that it halted, or the fault record (60_exceptions.md section 3). That the
report is a stop of `step` is THE MODEL'S CHOICE (log entry 10). The fault record is decision D15 (DEDUCED, log entry
11). -/
def Obligations.EndedRunReportsItsOutcome : Prop :=
  ∀ s : State, (s.run = .halted → step s = .fault .runHalted) ∧
    (s.run = .faulted → step s = .fault (.runFaulted s.fault))

/-- No meaning ever stops: every instruction, in every state, answers a next state. For PUTS and PUTSP this is the
termination of every string walk (44_trap.md rule R133, 70_reset_and_hazards.md rule R195). That GETC and IN with no
character waiting answer a next state, which holds, is THE MODEL'S CHOICE (log entry 5). -/
def Obligations.ExecAlwaysCompletes : Prop :=
  ∀ (i : Instr) (s : State), ∃ t, exec i s = .next t

/-- "a store to an address is seen by the next fetch from that address, with no intervening instruction required"
(rule R191). The premise on `hold` is about THE MODEL'S own field (log entry 5), and the premise on pc leaves out the
address where a fetch polls (decision D19; DEDUCED, log entry 15). -/
def Obligations.StoreIsSeenByNextFetch : Prop :=
  ∀ (s : State) (v : Word), s.run = .running → s.hold = none → s.pc ≠ Config.mrKbsr →
    step (s.memWrite s.pc v) = exec (decode v) { s.memWrite s.pc v with pc := s.pc + 1 }

/-- A fetch from MR_KBSR polls: with no key the word is 0x0000, a no-operation, whatever the cell held; with a key it
is the cell with bit 15 set, and for a cell whose bits 14:0 are 0 that is 0x8000, which faults (rules R50, R193). That
a fetch polls is decision D19 (DEDUCED, log entry 15), that the other bits are kept and the key consumed D6 and D7
(DEDUCED, log entry 14), the record D15 (DEDUCED, log entries 11 and 13), and opcode 1000 as an illegal one D1
(PRESUMED, log entry 6). The premise and clauses on `hold` are about THE MODEL'S own field (log entry 5). -/
def Obligations.FetchAtStatusAddressPolls : Prop :=
  ∀ s : State, s.run = .running → s.hold = none → s.pc = Config.mrKbsr →
    (s.kbdIn = [] → ∃ t, step s = .next t ∧ t.pc = Config.mrKbsr + 1 ∧ t.mem.read Config.mrKbsr = 0x0000 ∧
      SameMemBut [Config.mrKbsr] s t ∧ SameRegsBut [] s t ∧ t.cond = s.cond ∧ SameConsole s t ∧ SameControl s t) ∧
    (s.kbdIn ≠ [] → step s = exec (decode (s.mem.read Config.mrKbsr ||| 0x8000)) { s.kbdPoll with pc := Config.mrKbsr + 1 }) ∧
    (∀ c rest, s.kbdIn = c :: rest → s.mem.read Config.mrKbsr &&& 0x7FFF = 0x0000 →
      ∃ t, step s = .next t ∧ t.pc = Config.mrKbsr + 1 ∧ t.run = .faulted ∧
        t.fault = some ⟨.illegalOpcode 0x8000, Config.mrKbsr⟩ ∧ t.mem.read Config.mrKbsr = 0x8000 ∧
        (t.mem.read Config.mrKbdr).toNat = c.toNat ∧ t.kbdIn = rest ∧
        SameMemBut [Config.mrKbsr, Config.mrKbdr] s t ∧ SameRegsBut [] s t ∧ t.cond = s.cond ∧ t.conOut = s.conOut ∧
        t.hold = s.hold)

/-! ## Flags and operate instructions (10_state.md, 41_operate.md) -/

/-- SetCC sets cond to the sign of the register's current value and changes nothing else (rule R18). The frame's
clause on `hold` is about THE MODEL'S own field (log entry 5). -/
def Obligations.SetCCTakesTheSignOfTheRegister : Prop :=
  ∀ (s : State) (r : Reg),
    let t := s.setCC r
    CondMatches t.cond (s.reg r) ∧ SameRegsBut [] s t ∧ t.pc = s.pc ∧ SameMemBut [] s t ∧ SameConsole s t ∧
    SameControl s t

/-- ADD, both forms: the word decodes to the form its mode bit selects, the sum modulo 65,536 goes to DR, cond takes
its sign, and nothing else changes (rule R101). The opcode number, the field positions and the sense of the mode bit
are from general knowledge, decisions D1 and D2 (PRESUMED, log entry 6); that bits 4:3 of the register form are
ignored is decision D4 (DEDUCED, log entry 7). The frame's clause on `hold` is about THE MODEL'S own field (log entry
5). -/
def Obligations.AddWritesSumAndFlags : Prop :=
  (∀ w : Word, field 12 4 w = 0b0001 → decode w =
    if w.getLsbD 5 then .addi (regField 9 w) (regField 6 w) (field 0 5 w)
    else .add (regField 9 w) (regField 6 w) (regField 0 w)) ∧
  (∀ (dr sr1 sr2 : Reg) (s : State), ∃ t, exec (.add dr sr1 sr2) s = .next t ∧
    (t.reg dr).toNat = ((s.reg sr1).toNat + (s.reg sr2).toNat) % 65536 ∧ CondMatches t.cond (t.reg dr) ∧
    SameRegsBut [dr] s t ∧ t.pc = s.pc ∧ SameMemBut [] s t ∧ SameConsole s t ∧ SameControl s t) ∧
  (∀ (dr sr1 : Reg) (imm : BitVec 5) (s : State), ∃ t, exec (.addi dr sr1 imm) s = .next t ∧
    (t.reg dr).toNat = ((s.reg sr1).toNat + (sext imm).toNat) % 65536 ∧ CondMatches t.cond (t.reg dr) ∧
    SameRegsBut [dr] s t ∧ t.pc = s.pc ∧ SameMemBut [] s t ∧ SameConsole s t ∧ SameControl s t)

/-- AND, both forms: bit by bit, the immediate sign-extended first; cond takes the result's sign; nothing else changes
(rule R102). The opcode number, the field positions and the sense of the mode bit are from general knowledge,
decisions D1 and D2 (PRESUMED, log entry 6); that bits 4:3 of the register form are ignored is decision D4 (DEDUCED,
log entry 7). The frame's clause on `hold` is about THE MODEL'S own field (log entry 5). -/
def Obligations.AndWritesBitwiseAndFlags : Prop :=
  (∀ w : Word, field 12 4 w = 0b0101 → decode w =
    if w.getLsbD 5 then .andi (regField 9 w) (regField 6 w) (field 0 5 w)
    else .and (regField 9 w) (regField 6 w) (regField 0 w)) ∧
  (∀ (dr sr1 sr2 : Reg) (s : State), ∃ t, exec (.and dr sr1 sr2) s = .next t ∧
    (∀ i, (t.reg dr).getLsbD i = ((s.reg sr1).getLsbD i && (s.reg sr2).getLsbD i)) ∧ CondMatches t.cond (t.reg dr) ∧
    SameRegsBut [dr] s t ∧ t.pc = s.pc ∧ SameMemBut [] s t ∧ SameConsole s t ∧ SameControl s t) ∧
  (∀ (dr sr1 : Reg) (imm : BitVec 5) (s : State), ∃ t, exec (.andi dr sr1 imm) s = .next t ∧
    (∀ i, (t.reg dr).getLsbD i = ((s.reg sr1).getLsbD i && (sext imm).getLsbD i)) ∧ CondMatches t.cond (t.reg dr) ∧
    SameRegsBut [dr] s t ∧ t.pc = s.pc ∧ SameMemBut [] s t ∧ SameConsole s t ∧ SameControl s t)

/-- NOT: every bit complemented, cond from the result, nothing else changed (rule R103). The opcode number and the
field positions are from general knowledge, decisions D1 and D2 (PRESUMED, log entry 6); that bits 5:0 are ignored is
decision D4 (DEDUCED, log entry 7). The frame's clause on `hold` is about THE MODEL'S own field (log entry 5). -/
def Obligations.NotWritesComplementAndFlags : Prop :=
  (∀ w : Word, field 12 4 w = 0b1001 → decode w = .not (regField 9 w) (regField 6 w)) ∧
  (∀ (dr sr : Reg) (s : State), ∃ t, exec (.not dr sr) s = .next t ∧
    (∀ i < 16, (t.reg dr).getLsbD i = !(s.reg sr).getLsbD i) ∧ CondMatches t.cond (t.reg dr) ∧
    SameRegsBut [dr] s t ∧ t.pc = s.pc ∧ SameMemBut [] s t ∧ SameConsole s t ∧ SameControl s t)

/-! ## Control transfer (42_control.md) -/

/-- BR: taken exactly when n with NEGATIVE, z with ZERO or p with POSITIVE, to pc + sext_9(PCoffset9); else pc stays;
nothing else changes (rule R110). The pairing of the three bits with the three codes is decision D3, from general
knowledge (PRESUMED, log entry 6). The opcode number is from general knowledge, decision D1, too (PRESUMED, log entry
6). The frame's clause on `hold` is about THE MODEL'S own field (log entry 5). -/
def Obligations.BranchFollowsConditionField : Prop :=
  (∀ w : Word, field 12 4 w = 0b0000 → decode w = .br (field 9 3 w) (field 0 9 w)) ∧
  (∀ (nzp : BitVec 3) (off : BitVec 9) (s : State), ∃ t, exec (.br nzp off) s = .next t ∧
    ((nzp.getLsbD 2 = true ∧ s.cond = .negative ∨ nzp.getLsbD 1 = true ∧ s.cond = .zero ∨
        nzp.getLsbD 0 = true ∧ s.cond = .positive) →
      t.pc.toNat = (s.pc.toNat + (sext off).toNat) % 65536) ∧
    (¬ (nzp.getLsbD 2 = true ∧ s.cond = .negative ∨ nzp.getLsbD 1 = true ∧ s.cond = .zero ∨
        nzp.getLsbD 0 = true ∧ s.cond = .positive) → t.pc = s.pc) ∧
    SameRegsBut [] s t ∧ t.cond = s.cond ∧ SameMemBut [] s t ∧ SameConsole s t ∧ SameControl s t)

/-- The 512 words 0x0000 to 0x01FF only advance pc, and a BR whose nzp field is 111 always branches (rule R73). That
these words are BR, and which bit is which, is from general knowledge, decisions D1 to D3 (PRESUMED, log entry 6). -/
def Obligations.BranchZeroMaskNeverAllOnesAlways : Prop :=
  (∀ (w : Word) (s : State), w.toNat ≤ 0x01FF → exec (decode w) s = .next s) ∧
  (∀ (off : BitVec 9) (s : State), ∃ t, exec (.br 0b111 off) s = .next t ∧
    t.pc = s.pc + sext off ∧ t = { s with pc := t.pc })

/-- JMP: pc takes the base register's value and nothing else changes (rule R111). The opcode number and the field
positions are from general knowledge, decisions D1 and D2 (PRESUMED, log entry 6); that bits 11:9 and 5:0 are ignored
is decision D4 (DEDUCED, log entry 7). The frame's clause on `hold` is about THE MODEL'S own field (log entry 5). -/
def Obligations.JumpTakesBaseRegister : Prop :=
  (∀ w : Word, field 12 4 w = 0b1100 → decode w = .jmp (regField 6 w)) ∧
  (∀ (base : Reg) (s : State), ∃ t, exec (.jmp base) s = .next t ∧ t.pc = s.reg base ∧
    SameRegsBut [] s t ∧ t.cond = s.cond ∧ SameMemBut [] s t ∧ SameConsole s t ∧ SameControl s t)

/-- JSR: R7 takes the incremented pc, pc the PC-relative target, and nothing else changes (rule R112). The opcode
number is from general knowledge, decision D1 (PRESUMED, log entry 6). The frame's clause on `hold` is about THE
MODEL'S own field (log entry 5). -/
def Obligations.JsrLinksAndJumpsRelative : Prop :=
  (∀ w : Word, field 12 4 w = 0b0100 → w.getLsbD 11 = true → decode w = .jsr (field 0 11 w)) ∧
  (∀ (off : BitVec 11) (s : State), ∃ t, exec (.jsr off) s = .next t ∧ t.reg .r7 = s.pc ∧
    t.pc.toNat = (s.pc.toNat + (sext off).toNat) % 65536 ∧
    SameRegsBut [.r7] s t ∧ t.cond = s.cond ∧ SameMemBut [] s t ∧ SameConsole s t ∧ SameControl s t)

/-- JSRR: R7 takes the incremented pc first, then pc the base register's value, so that JSRR R7 goes to the next
instruction; nothing else changes (rule R113). That order is decision D18, read from the source's word order (DEDUCED,
log entry 12). The opcode number and the field positions are from general knowledge, decisions D1 and D2 (PRESUMED,
log entry 6); that bits 10:9 and 5:0 are ignored is decision D4 (DEDUCED, log entry 7). The frame's clause on `hold`
is about THE MODEL'S own field (log entry 5). -/
def Obligations.JsrrLinksThenReadsBase : Prop :=
  (∀ w : Word, field 12 4 w = 0b0100 → w.getLsbD 11 = false → decode w = .jsrr (regField 6 w)) ∧
  (∀ (base : Reg) (s : State), ∃ t, exec (.jsrr base) s = .next t ∧ t.reg .r7 = s.pc ∧
    (base ≠ .r7 → t.pc = s.reg base) ∧ (base = .r7 → t.pc = s.pc) ∧
    SameRegsBut [.r7] s t ∧ t.cond = s.cond ∧ SameMemBut [] s t ∧ SameConsole s t ∧ SameControl s t)

/-! ## Loads, stores, LEA (43_load_store.md) -/

/-- LD (rule R120). The opcode number, and which register a field value names, are from general knowledge, decision D1
and rule R67 (PRESUMED, log entry 6). The frame's clause on `hold` is about THE MODEL'S own field (log entry 5). -/
def Obligations.LdLoadsPcRelative : Prop :=
  (∀ w : Word, field 12 4 w = 0b0010 → decode w = .ld (regField 9 w) (field 0 9 w)) ∧
  (∀ (dr : Reg) (off : BitVec 9) (s : State), ∃ t, exec (.ld dr off) s = .next t ∧
    LoadsFrom (s.pc + sext off) dr s t)

/-- LDI: the pointer is read first, then the datum at the address it holds; each read may poll (rule R121). The opcode
number, and which register a field value names, are from general knowledge, decision D1 and rule R67 (PRESUMED, log
entry 6). The frame's clause on `hold` is about THE MODEL'S own field (log entry 5). -/
def Obligations.LdiLoadsThroughPointer : Prop :=
  (∀ w : Word, field 12 4 w = 0b1010 → decode w = .ldi (regField 9 w) (field 0 9 w)) ∧
  (∀ (dr : Reg) (off : BitVec 9) (s : State), ∃ t, exec (.ldi dr off) s = .next t ∧
    LoadsFrom (s.memRead (s.pc + sext off)).1 dr (s.memRead (s.pc + sext off)).2 t ∧
    SameRegsBut [dr] s t ∧ t.pc = s.pc ∧ t.conOut = s.conOut ∧ SameControl s t ∧
    (s.pc + sext off ≠ Config.mrKbsr → s.mem.read (s.pc + sext off) ≠ Config.mrKbsr →
      t.reg dr = s.mem.read (s.mem.read (s.pc + sext off)) ∧ SameMemBut [] s t ∧ SameConsole s t))

/-- LDR: the base register is read before DR is written (rule R122). The opcode number and the field positions are
from general knowledge, decisions D1 and D2 (PRESUMED, log entry 6). The frame's clause on `hold` is about THE MODEL'S
own field (log entry 5). -/
def Obligations.LdrLoadsBasePlusOffset : Prop :=
  (∀ w : Word, field 12 4 w = 0b0110 → decode w = .ldr (regField 9 w) (regField 6 w) (field 0 6 w)) ∧
  (∀ (dr base : Reg) (off : BitVec 6) (s : State), ∃ t, exec (.ldr dr base off) s = .next t ∧
    LoadsFrom (s.reg base + sext off) dr s t)

/-- LEA: the address goes to DR and its sign to cond, with no memory access, at MR_KBSR too (rule R123). The opcode
number, and which register a field value names, are from general knowledge, decision D1 and rule R67 (PRESUMED, log
entry 6). The frame's clause on `hold` is about THE MODEL'S own field (log entry 5). -/
def Obligations.LeaWritesAddressAndFlags : Prop :=
  (∀ w : Word, field 12 4 w = 0b1110 → decode w = .lea (regField 9 w) (field 0 9 w)) ∧
  (∀ (dr : Reg) (off : BitVec 9) (s : State), ∃ t, exec (.lea dr off) s = .next t ∧
    (t.reg dr).toNat = (s.pc.toNat + (sext off).toNat) % 65536 ∧ CondMatches t.cond (t.reg dr) ∧
    SameRegsBut [dr] s t ∧ t.pc = s.pc ∧ SameMemBut [] s t ∧ SameConsole s t ∧ SameControl s t)

/-- ST (rule R124). The opcode number, and which register a field value names, are from general knowledge, decision D1
and rule R67 (PRESUMED, log entry 6). The frame's clause on `hold` is about THE MODEL'S own field (log entry 5). -/
def Obligations.StStoresPcRelative : Prop :=
  (∀ w : Word, field 12 4 w = 0b0011 → decode w = .st (regField 9 w) (field 0 9 w)) ∧
  (∀ (sr : Reg) (off : BitVec 9) (s : State), ∃ t, exec (.st sr off) s = .next t ∧
    t.mem.read (s.pc + sext off) = s.reg sr ∧ SameMemBut [s.pc + sext off] s t ∧
    SameRegsBut [] s t ∧ t.pc = s.pc ∧ t.cond = s.cond ∧ SameConsole s t ∧ SameControl s t)

/-- STI: the pointer is read, with its poll where it stands at MR_KBSR, and the store goes to the address it holds
(rule R125). The opcode number, and which register a field value names, are from general knowledge, decision D1 and
rule R67 (PRESUMED, log entry 6). The frame's clause on `hold` is about THE MODEL'S own field (log entry 5). -/
def Obligations.StiStoresThroughPointer : Prop :=
  (∀ w : Word, field 12 4 w = 0b1011 → decode w = .sti (regField 9 w) (field 0 9 w)) ∧
  (∀ (sr : Reg) (off : BitVec 9) (s : State), ∃ t, exec (.sti sr off) s = .next t ∧
    t.mem.read (s.memRead (s.pc + sext off)).1 = s.reg sr ∧
    SameMemBut [(s.memRead (s.pc + sext off)).1] (s.memRead (s.pc + sext off)).2 t ∧
    SameConsole (s.memRead (s.pc + sext off)).2 t ∧
    SameRegsBut [] s t ∧ t.pc = s.pc ∧ t.cond = s.cond ∧ t.conOut = s.conOut ∧ SameControl s t ∧
    (s.pc + sext off ≠ Config.mrKbsr →
      t.mem.read (s.mem.read (s.pc + sext off)) = s.reg sr ∧ SameMemBut [s.mem.read (s.pc + sext off)] s t ∧
      SameConsole s t))

/-- STR (rule R126). The opcode number and the field positions are from general knowledge, decisions D1 and D2
(PRESUMED, log entry 6). The frame's clause on `hold` is about THE MODEL'S own field (log entry 5). -/
def Obligations.StrStoresBasePlusOffset : Prop :=
  (∀ w : Word, field 12 4 w = 0b0111 → decode w = .str (regField 9 w) (regField 6 w) (field 0 6 w)) ∧
  (∀ (sr base : Reg) (off : BitVec 6) (s : State), ∃ t, exec (.str sr base off) s = .next t ∧
    t.mem.read (s.reg base + sext off) = s.reg sr ∧ SameMemBut [s.reg base + sext off] s t ∧
    SameRegsBut [] s t ∧ t.pc = s.pc ∧ t.cond = s.cond ∧ SameConsole s t ∧ SameControl s t)

/-! ## TRAP and the six routines (44_trap.md) -/

/-- TRAP dispatches on its vector: 0x20 to 0x25 run the six routines, and every other vector raises IllegalTrapVector
(rule R130). The first clause says so of every TRAP word. The terms `trap 0x20` to `trap 0x25` are ill-formed and no
word decodes to them: that exec gives them the routine's meaning is THE MODEL'S CHOICE (DESIGN CHOICE, log entry 20).
The cause of its own is decision D16 (DEDUCED, log entry 11), and the address pc - 1 is log entry 13 (DEDUCED). That
opcode 1111 is TRAP is from general knowledge, decision D1 (PRESUMED, log entry 6), and that bits 11:8 are ignored is
decision D4 (DEDUCED, log entry 7). -/
def Obligations.TrapDispatchesByVector : Prop :=
  (∀ w : Word, field 12 4 w = 0b1111 → ∀ s : State, exec (decode w) s = exec (.trap (field 0 8 w)) s) ∧
  (∀ s : State, exec (.trap 0x20) s = exec .getc s ∧ exec (.trap 0x21) s = exec .out s ∧
    exec (.trap 0x22) s = exec .puts s ∧ exec (.trap 0x23) s = exec .input s ∧
    exec (.trap 0x24) s = exec .putsp s ∧ exec (.trap 0x25) s = exec .halt s) ∧
  (∀ (vect : Byte) (s : State), namesRoutine vect = false → ∃ t, exec (.trap vect) s = .next t ∧
    t.run = .faulted ∧ t.fault = some ⟨.illegalTrapVector vect, s.pc - 1⟩)

/-- Every TRAP, whatever its vector, leaves x[7] = ia + 1 and pc = ia + 1 and stores to no cell: only the poll of a
PUTS or PUTSP read at MR_KBSR changes memory, and then the two keyboard cells alone (rules R130, R138). Each other
part of the state changes at most at the routines that its clause leaves out: R0 and cond at GETC and IN; run at HALT
and, with the fault record, at the vectors that name no routine; kbd_in where a character may be read; con_out where
one is written. The clause on `hold` is about THE MODEL'S own field (log entry 5). That no routine writes another
register is decision D24 (DEDUCED, log entry 17), that string reads poll is D11 (DEDUCED, log entry 15), and that x[7]
is written before an unknown vector faults is D16 (DEDUCED, log entry 12). -/
def Obligations.TrapsSaveLinkAndKeepTheRest : Prop :=
  ∀ (i : Instr) (vect : Byte) (s : State), trapVector i = some vect → ∃ t, exec i s = .next t ∧
    t.reg .r7 = s.pc ∧ t.pc = s.pc ∧ SameRegsBut [.r0, .r7] s t ∧
    (vect ≠ 0x20 → vect ≠ 0x23 → t.reg .r0 = s.reg .r0 ∧ t.cond = s.cond ∧ t.hold = s.hold) ∧
    SameMemBut [Config.mrKbsr, Config.mrKbdr] s t ∧
    (vect ≠ 0x22 → vect ≠ 0x24 → SameMemBut [] s t) ∧
    (vect = 0x21 ∨ vect = 0x25 ∨ namesRoutine vect = false → t.kbdIn = s.kbdIn) ∧
    (vect = 0x20 ∨ namesRoutine vect = false → t.conOut = s.conOut) ∧
    (namesRoutine vect = true → t.fault = s.fault ∧ (vect ≠ 0x25 → t.run = s.run))

/-- GETC with a character waiting: it is taken from kbd_in to R0, zero-extended, cond is ZERO or POSITIVE, and nothing
is written to the console (rule R131). That a character is 8 bits with no end-of-input value, so that R0 is below
0x0100 and cond never NEGATIVE, is decision D9 (DEDUCED, log entry 18); that no other register changes is D24
(DEDUCED, log entry 17). The frame's clause on `hold` is about THE MODEL'S own field (log entry 5). -/
def Obligations.GetcReadsOneCharacter : Prop :=
  ∀ (s : State) (c : Byte) (rest : List Byte), s.kbdIn = c :: rest → ∃ t, exec .getc s = .next t ∧
    (t.reg .r0).toNat = c.toNat ∧ t.cond = (if c = 0 then .zero else .positive) ∧ t.kbdIn = rest ∧
    t.conOut = s.conOut ∧ t.reg .r7 = s.pc ∧ SameRegsBut [.r0, .r7] s t ∧ t.pc = s.pc ∧ SameMemBut [] s t ∧
    SameControl s t

/-- OUT writes the low byte of R0 (rule R132). That OUT leaves every register but R7 as it was is decision D24
(DEDUCED, log entry 17). The frame's clause on `hold` is about THE MODEL'S own field (log entry 5). -/
def Obligations.OutWritesLowByteOfR0 : Prop :=
  ∀ s : State, ∃ t, exec .out s = .next t ∧ t.conOut = s.conOut ++ [(s.reg .r0).setWidth 8] ∧
    t.reg .r7 = s.pc ∧ SameRegsBut [.r7] s t ∧ t.pc = s.pc ∧ t.cond = s.cond ∧ t.kbdIn = s.kbdIn ∧
    SameMemBut [] s t ∧ SameControl s t

/-- IN with a character waiting: prompt, then the echo, on the console; the character to R0 and the flags (rule R134).
The order prompt, read, echo, register is decision D14, and that no other register changes D24 (DEDUCED, log entry
17); that a character is 8 bits with no end-of-input value is D9 (DEDUCED, log entry 18). The frame's clause on `hold`
is about THE MODEL'S own field (log entry 5). -/
def Obligations.InPromptsReadsAndEchoes : Prop :=
  ∀ (s : State) (c : Byte) (rest : List Byte), s.kbdIn = c :: rest → ∃ t, exec .input s = .next t ∧
    (t.reg .r0).toNat = c.toNat ∧ t.cond = (if c = 0 then .zero else .positive) ∧ t.kbdIn = rest ∧
    t.conOut = s.conOut ++ Config.inPrompt ++ [c] ∧ t.reg .r7 = s.pc ∧ SameRegsBut [.r0, .r7] s t ∧ t.pc = s.pc ∧
    SameMemBut [] s t ∧ SameControl s t

/-- PUTS of a string that does not reach MR_KBSR: the low byte of each word up to the first word equal to zero, which
is not written (rule R133). Writing the low 8 bits is decision D10 and leaving R0 alone D24 (DEDUCED, log entry 17).
Strings that reach MR_KBSR are in PutsLoopReadsWordByWord. The frame's clause on `hold` is about THE MODEL'S own field
(log entry 5). -/
def Obligations.PutsWritesWordString : Prop :=
  ∀ (s : State) (ws : List Word), (∀ w ∈ ws, w ≠ 0x0000) →
    (∀ k < ws.length, s.mem.read (s.reg .r0 + BitVec.ofNat 16 k) = ws.getD k 0) →
    s.mem.read (s.reg .r0 + BitVec.ofNat 16 ws.length) = 0x0000 →
    (∀ k ≤ ws.length, s.reg .r0 + BitVec.ofNat 16 k ≠ Config.mrKbsr) →
    ∃ t, exec .puts s = .next t ∧ t.conOut = s.conOut ++ ws.map (fun w : Word => w.setWidth 8) ∧
      t.reg .r7 = s.pc ∧ SameRegsBut [.r7] s t ∧ t.pc = s.pc ∧ t.cond = s.cond ∧ t.kbdIn = s.kbdIn ∧
      SameMemBut [] s t ∧ SameControl s t

/-- The loop of PUTS, for every string, one through MR_KBSR too: a zero word ends it; any other word writes its low
byte and the rest is PUTS from the next address, R0 itself unmodified (rule R133). Writing the low 8 bits is decision
D10 and leaving R0 alone D24 (DEDUCED, log entry 17); reading through MemRead is D11 (DEDUCED, log entry 15). -/
def Obligations.PutsLoopReadsWordByWord : Prop :=
  ∀ s : State,
    let w := (s.memRead (s.reg .r0)).1
    let s1 := (s.memRead (s.reg .r0)).2
    (w = 0x0000 → exec .puts s = .next (s1.setReg .r7 s.pc)) ∧
    (w ≠ 0x0000 → ∃ t, exec .puts ((s1.consoleWriteSeq [w.setWidth 8]).setReg .r0 (s.reg .r0 + 1)) = .next t ∧
      exec .puts s = .next (t.setReg .r0 (s.reg .r0)))

/-- PUTSP of a string that does not reach MR_KBSR: of each word the low byte, then the high byte if nonzero, up to the
first word equal to zero (rule R135). Writing a zero low byte is decision D30 and leaving R0 alone D24 (DEDUCED, log
entry 17). Strings that reach MR_KBSR are in PutspLoopReadsWordByWord. The frame's clause on `hold` is about THE
MODEL'S own field (log entry 5). -/
def Obligations.PutspWritesPackedString : Prop :=
  ∀ (s : State) (ws : List Word), (∀ w ∈ ws, w ≠ 0x0000) →
    (∀ k < ws.length, s.mem.read (s.reg .r0 + BitVec.ofNat 16 k) = ws.getD k 0) →
    s.mem.read (s.reg .r0 + BitVec.ofNat 16 ws.length) = 0x0000 →
    (∀ k ≤ ws.length, s.reg .r0 + BitVec.ofNat 16 k ≠ Config.mrKbsr) →
    ∃ t, exec .putsp s = .next t ∧
      t.conOut = s.conOut ++ ws.flatMap (fun w : Word =>
        if (w >>> 8) = 0 then [w.setWidth 8] else [w.setWidth 8, (w >>> 8).setWidth 8]) ∧
      t.reg .r7 = s.pc ∧ SameRegsBut [.r7] s t ∧ t.pc = s.pc ∧ t.cond = s.cond ∧ t.kbdIn = s.kbdIn ∧
      SameMemBut [] s t ∧ SameControl s t

/-- The loop of PUTSP, for every string, one through MR_KBSR too (rule R135). The zero low byte is decision D30 and R0
unmodified D24 (DEDUCED, log entry 17); reading through MemRead is D11 (DEDUCED, log entry 15). -/
def Obligations.PutspLoopReadsWordByWord : Prop :=
  ∀ s : State,
    let w := (s.memRead (s.reg .r0)).1
    let s1 := (s.memRead (s.reg .r0)).2
    (w = 0x0000 → exec .putsp s = .next (s1.setReg .r7 s.pc)) ∧
    (w ≠ 0x0000 → ∃ t,
      exec .putsp ((s1.consoleWriteSeq
        (if (w >>> 8) = 0 then [w.setWidth 8] else [w.setWidth 8, (w >>> 8).setWidth 8])).setReg .r0 (s.reg .r0 + 1)) =
        .next t ∧
      exec .putsp s = .next (t.setReg .r0 (s.reg .r0)))

/-- HALT: the notice is written, run becomes HALTED, x[7] = pc = ia + 1, "everything else as before the instruction",
and no step leads on from it (rule R136). That HALT leaves every register but R7 as it was is decision D24 (DEDUCED,
log entry 17). The frame's clause on `hold` is about THE MODEL'S own field (log entry 5). -/
def Obligations.HaltEndsTheRun : Prop :=
  ∀ s : State, ∃ t, exec .halt s = .next t ∧ t.run = .halted ∧ t.conOut = s.conOut ++ Config.haltNotice ∧
    t.reg .r7 = s.pc ∧ SameRegsBut [.r7] s t ∧ t.pc = s.pc ∧ t.cond = s.cond ∧ t.kbdIn = s.kbdIn ∧
    SameMemBut [] s t ∧ t.fault = s.fault ∧ t.hold = s.hold ∧ ∀ u, step t ≠ .next u

/-- Any other vector: x[7] has been written with ia + 1, the fault is recorded with the vector and ia, run becomes
FAULTED, and nothing else changes (rule R137). That x[7] is written before the fault, and the cause of its own, are
decision D16 (DEDUCED, log entries 12 and 11). The recorded address pc - 1 is log entry 13 (DEDUCED). The frame's
clause on `hold` is about THE MODEL'S own field (log entry 5). -/
def Obligations.UnknownVectorRaises : Prop :=
  ∀ (vect : Byte) (s : State), vect.toNat < 0x20 ∨ 0x25 < vect.toNat → ∃ t, exec (.trap vect) s = .next t ∧
    t.run = .faulted ∧ t.fault = some ⟨.illegalTrapVector vect, s.pc - 1⟩ ∧ t.reg .r7 = s.pc ∧
    SameRegsBut [.r7] s t ∧ t.pc = s.pc ∧ t.cond = s.cond ∧ SameMemBut [] s t ∧ SameConsole s t ∧ t.hold = s.hold

/-- The two illegal opcodes: the fault is recorded with the whole word and ia, run becomes FAULTED, and nothing else
changes (45_reserved.md rules R140, R141). Which two values are illegal is from general knowledge, decision D1
(PRESUMED, log entry 6); the record and its address are DEDUCED (log entries 11 and 13). The frame's clause on `hold`
is about THE MODEL'S own field (log entry 5). -/
def Obligations.ReservedOpcodesRaise : Prop :=
  (∀ w : Word, field 12 4 w = 0b1000 → decode w = .rti (field 0 12 w)) ∧
  (∀ w : Word, field 12 4 w = 0b1101 → decode w = .res (field 0 12 w)) ∧
  (∀ (low : BitVec 12) (s : State), ∃ t, exec (.rti low) s = .next t ∧ t.run = .faulted ∧
    t.fault = some ⟨.illegalOpcode (0x8000 ||| low.setWidth 16), s.pc - 1⟩ ∧ SameRegsBut [] s t ∧ t.pc = s.pc ∧
    t.cond = s.cond ∧ SameMemBut [] s t ∧ SameConsole s t ∧ t.hold = s.hold) ∧
  (∀ (low : BitVec 12) (s : State), ∃ t, exec (.res low) s = .next t ∧ t.run = .faulted ∧
    t.fault = some ⟨.illegalOpcode (0xD000 ||| low.setWidth 16), s.pc - 1⟩ ∧ SameRegsBut [] s t ∧ t.pc = s.pc ∧
    t.cond = s.cond ∧ SameMemBut [] s t ∧ SameConsole s t ∧ t.hold = s.hold)

/-! ## The hold of a console read (60_exceptions.md rule R163) -/

/-- GETC and IN with no character waiting: the effects before the read have happened (x[7], and IN's prompt), those
after it have not, and the machine is still RUNNING; a further step with none waiting changes nothing (rule R163). The
field `hold`, and a held step as one that leads to the same state, are THE MODEL'S CHOICE (log entry 5). That the
prompt comes before the read is decision D14 (DEDUCED, log entry 17). -/
def Obligations.ConsoleReadHoldsWithoutInput : Prop :=
  (∀ s : State, s.kbdIn = [] →
    exec .getc s = .next { s.setReg .r7 s.pc with hold := some .getc } ∧
    exec .input s = .next { (s.setReg .r7 s.pc).consoleWriteSeq Config.inPrompt with hold := some .input }) ∧
  (∀ (s : State) (w : ConsoleWait), s.run = .running → s.hold = some w → s.kbdIn = [] → step s = .next s)

/-- What lifts the hold: once the host has appended characters, the held step completes with exactly the state the
instruction would have given had they been waiting (rule R163; the field `hold` is THE MODEL'S, log entry 5). That
keys arrive during a hold and never inside a step is decision D20 (DEDUCED, log entry 19). -/
def Obligations.TypedKeyCompletesTheHeldRead : Prop :=
  ∀ (s h : State) (i : Instr) (c : Byte) (cs : List Byte), (i = .getc ∨ i = .input) → s.run = .running →
    s.hold = none → s.kbdIn = [] → exec i s = .next h →
    step (h.typeKeys (c :: cs)) = exec i (s.typeKeys (c :: cs))

/-! ## Rules over all instructions -/

/-- cond is written by the instructions of rule R19 alone, and after a completed one of them it is the sign of the
register just written (rules R19, R20). A GETC or IN with no character waiting has not yet written cond (rule R163);
that it shows as a next state with `hold` set, so that "completed" reads `hold` still none, is THE MODEL'S CHOICE (log
entry 5). -/
def Obligations.CondChangesOnlyAtItsWriters : Prop :=
  ∀ (i : Instr) (s t : State), i.wellFormed = true → exec i s = .next t →
    (condDest i = none → t.cond = s.cond) ∧
    (∀ r, condDest i = some r → s.hold = none → t.hold = none → CondMatches t.cond (t.reg r)) ∧
    (t.hold ≠ s.hold → t.cond = s.cond)

/-- "An instruction that does not write pc leaves it at (ia + 1) mod 2^16. The instructions that write pc are BR (when
taken), JMP, JSR and JSRR" (rule R15). -/
def Obligations.PcIsWrittenOnlyByControlTransfer : Prop :=
  ∀ (i : Instr) (s t : State), exec i s = .next t → WritesPc i = false → t.pc = s.pc

/-- The complete list of what ends a run: TRAP HALT, IllegalOpcode and IllegalTrapVector; a fault's record holds the
address the instruction was fetched from and its word or vector, and pc is that address plus one (rules R23, R150 to
R154). The record, and IllegalTrapVector as a cause of its own, are decisions D15 and D16 (DEDUCED, log entry 11); the
opcode numbers are from general knowledge (PRESUMED, log entry 6); a fetch that polls is D19 (DEDUCED, log entry 15).
The clauses on `hold` are about THE MODEL'S own field (log entry 5). That a TRAP word's bits 11:8 are ignored is D4
(DEDUCED, log entry 7). -/
def Obligations.RunEndsOnlyByHaltOrFault : Prop :=
  ∀ s t : State, s.run = .running → step s = .next t →
    (t.run = .halted → s.hold = none ∧ decode (s.memRead s.pc).1 = .halt) ∧
    (t.run = .faulted → s.hold = none ∧ t.pc = s.pc + 1 ∧
      ((field 12 4 (s.memRead s.pc).1 = 0b1000 ∨ field 12 4 (s.memRead s.pc).1 = 0b1101) ∧
        t.fault = some ⟨.illegalOpcode (s.memRead s.pc).1, s.pc⟩ ∨
       field 12 4 (s.memRead s.pc).1 = 0b1111 ∧ namesRoutine (field 0 8 (s.memRead s.pc).1) = false ∧
        t.fault = some ⟨.illegalTrapVector (field 0 8 (s.memRead s.pc).1), s.pc⟩))

/-- No instruction unwrites console output or puts a character back: con_out grows at its end and kbd_in is consumed
from its front (rule R25). The console as two sequences is decision D8 (DEDUCED, log entry 18). -/
def Obligations.ConsoleSequencesOnlyMoveForward : Prop :=
  ∀ (i : Instr) (s t : State), exec i s = .next t → s.conOut <+: t.conOut ∧ t.kbdIn <:+ s.kbdIn

/-! ## The invariant -/

/-- The invariant holds at reset and in every launch state. Its clauses on the canonical form and on `hold` are about
THE MODEL'S own data (log entries 2 and 5). The fault record and FAULTED are decision D15 (DEDUCED, log entry 11). -/
def Obligations.LaunchStatesAreWellFormed : Prop :=
  State.reset.wf ∧ ∀ (g : Gprs) (images : List Image) (keys : List Byte), (State.boot g images keys).wf

/-- Every step keeps the invariant: memory stays in its canonical form, a fault record stands exactly when run =
FAULTED, and only a running machine holds (rules R22, R23, R163). The canonical form and `hold` are THE MODEL'S own
data (log entries 2 and 5). The fault record and FAULTED are decision D15 (DEDUCED, log entry 11). -/
def Obligations.StepKeepsWellFormedStates : Prop :=
  ∀ s t : State, s.wf → step s = .next t → t.wf
end

