-- ==== Sys2Proof/Laws/Decode.lean ====
section
/-! SUPPORT. The decoder's fields: register numbers and opcode values both ways. -/

namespace Sys2Proof

@[simp] theorem Reg.ofField_toField (r : Reg) : Reg.ofField r.toField = r := by cases r <;> rfl

@[simp] theorem Reg.toField_ofField (b : BitVec 3) : (Reg.ofField b).toField = b := by revert b; decide

/-- The map is a bijection, so a value has a variant exactly when it is that variant's number. -/
theorem opcodeMap_eq_iff (b : BitVec 4) (o : Opcode) : Config.opcodeMap b = o ↔ b = Config.opcodeMap.symm o :=
  (Config.opcodeMap.eq_symm_apply).symm

/-! The table of 30_encoding.md rule R70, from opcode value to variant. -/

@[simp] theorem opcodeMap_br : Config.opcodeMap 0b0000#4 = .br := rfl
@[simp] theorem opcodeMap_add : Config.opcodeMap 0b0001#4 = .add := rfl
@[simp] theorem opcodeMap_ld : Config.opcodeMap 0b0010#4 = .ld := rfl
@[simp] theorem opcodeMap_st : Config.opcodeMap 0b0011#4 = .st := rfl
@[simp] theorem opcodeMap_jsr : Config.opcodeMap 0b0100#4 = .jsr := rfl
@[simp] theorem opcodeMap_and : Config.opcodeMap 0b0101#4 = .and := rfl
@[simp] theorem opcodeMap_ldr : Config.opcodeMap 0b0110#4 = .ldr := rfl
@[simp] theorem opcodeMap_str : Config.opcodeMap 0b0111#4 = .str := rfl
@[simp] theorem opcodeMap_rti : Config.opcodeMap 0b1000#4 = .rti := rfl
@[simp] theorem opcodeMap_not : Config.opcodeMap 0b1001#4 = .not := rfl
@[simp] theorem opcodeMap_ldi : Config.opcodeMap 0b1010#4 = .ldi := rfl
@[simp] theorem opcodeMap_sti : Config.opcodeMap 0b1011#4 = .sti := rfl
@[simp] theorem opcodeMap_jmp : Config.opcodeMap 0b1100#4 = .jmp := rfl
@[simp] theorem opcodeMap_res : Config.opcodeMap 0b1101#4 = .res := rfl
@[simp] theorem opcodeMap_lea : Config.opcodeMap 0b1110#4 = .lea := rfl
@[simp] theorem opcodeMap_trap : Config.opcodeMap 0b1111#4 = .trap := rfl

/-! The same table, from variant to the opcode bits of a word. -/

@[simp] theorem opcodeWord_br : opcodeWord .br = 0x0000 := rfl
@[simp] theorem opcodeWord_add : opcodeWord .add = 0x1000 := rfl
@[simp] theorem opcodeWord_ld : opcodeWord .ld = 0x2000 := rfl
@[simp] theorem opcodeWord_st : opcodeWord .st = 0x3000 := rfl
@[simp] theorem opcodeWord_jsr : opcodeWord .jsr = 0x4000 := rfl
@[simp] theorem opcodeWord_and : opcodeWord .and = 0x5000 := rfl
@[simp] theorem opcodeWord_ldr : opcodeWord .ldr = 0x6000 := rfl
@[simp] theorem opcodeWord_str : opcodeWord .str = 0x7000 := rfl
@[simp] theorem opcodeWord_rti : opcodeWord .rti = 0x8000 := rfl
@[simp] theorem opcodeWord_not : opcodeWord .not = 0x9000 := rfl
@[simp] theorem opcodeWord_ldi : opcodeWord .ldi = 0xA000 := rfl
@[simp] theorem opcodeWord_sti : opcodeWord .sti = 0xB000 := rfl
@[simp] theorem opcodeWord_jmp : opcodeWord .jmp = 0xC000 := rfl
@[simp] theorem opcodeWord_res : opcodeWord .res = 0xD000 := rfl
@[simp] theorem opcodeWord_lea : opcodeWord .lea = 0xE000 := rfl
@[simp] theorem opcodeWord_trap : opcodeWord .trap = 0xF000 := rfl

end Sys2Proof
end

