-- ==== Sys2Proof/Laws/Memory.lean ====
section
/-! SUPPORT. The laws of the memory array: a read after a write, and the canonical form. -/

namespace Sys2Proof.Machine

/-! ## Reading one byte -/

theorem Memory.getByte_of_not_mem (m : Memory) (k : Nat) (h : ∀ c ∈ m, c.1 ≠ k) :
    m.getByte k = Config.unlistedByte := by
  induction m with
  | nil => rfl
  | cons c rest ih =>
    obtain ⟨j, v⟩ := c
    have hj : j ≠ k := h (j, v) (by simp)
    simp only [Memory.getByte, if_neg hj]
    exact ih fun c hc => h c (by simp [hc])

theorem Memory.getByte_insertByte_same (m : Memory) (k : Nat) (v : Byte) (h : ∀ c ∈ m, c.1 ≠ k) :
    (Memory.insertByte k v m).getByte k = v := by
  induction m with
  | nil => simp [Memory.insertByte, Memory.getByte]
  | cons c rest ih =>
    obtain ⟨j, u⟩ := c
    have hj : j ≠ k := h (j, u) (by simp)
    simp only [Memory.insertByte]
    split
    · simp [Memory.getByte]
    · simp only [Memory.getByte, if_neg hj]
      exact ih fun c hc => h c (by simp [hc])

theorem Memory.getByte_insertByte_other (m : Memory) {k l : Nat} (v : Byte) (h : l ≠ k) :
    (Memory.insertByte k v m).getByte l = m.getByte l := by
  induction m with
  | nil => simp [Memory.insertByte, Memory.getByte, Ne.symm h]
  | cons c rest ih =>
    obtain ⟨j, u⟩ := c
    simp only [Memory.insertByte]
    split
    · simp [Memory.getByte, Ne.symm h]
    · simp only [Memory.getByte, ih]

theorem Memory.getByte_filter_other (m : Memory) {k l : Nat} (h : l ≠ k) :
    Memory.getByte (m.filter (fun c => c.1 ≠ k)) l = m.getByte l := by
  induction m with
  | nil => rfl
  | cons c rest ih =>
    obtain ⟨j, u⟩ := c
    rw [List.filter_cons]
    split
    · simp only [Memory.getByte, ih]
    · next hj =>
      have : j = k := by simpa using hj
      subst this
      simp only [Memory.getByte, if_neg (Ne.symm h), ih]

theorem Memory.getByte_putByte_same (m : Memory) (k : Nat) (v : Byte) : (m.putByte k v).getByte k = v := by
  have gone : ∀ c ∈ m.filter (fun c => c.1 ≠ k), c.1 ≠ k := fun c hc => by simpa using (List.mem_filter.mp hc).2
  unfold Memory.putByte
  split
  · next hv => rw [hv]; exact Memory.getByte_of_not_mem _ k gone
  · exact Memory.getByte_insertByte_same _ k v gone

theorem Memory.getByte_putByte_other (m : Memory) {k l : Nat} (v : Byte) (h : l ≠ k) :
    (m.putByte k v).getByte l = m.getByte l := by
  unfold Memory.putByte
  split
  · exact m.getByte_filter_other h
  · rw [Memory.getByte_insertByte_other _ v h, m.getByte_filter_other h]

/-! ## Reading one word -/

@[simp] theorem Memory.read_write_same (m : Memory) (a v : Word) : (m.write a v).read a = v := by
  have hne : Memory.hiKey a ≠ Memory.loKey a := by simp [Memory.hiKey, Memory.loKey]
  simp only [Memory.write, Memory.read]
  rw [Memory.getByte_putByte_other _ _ hne, Memory.getByte_putByte_same, Memory.getByte_putByte_same]
  ext i
  simp only [BitVec.getElem_append, BitVec.getElem_extractLsb']
  split <;> simp_all [BitVec.getLsbD_eq_getElem]

theorem Memory.read_write_other (m : Memory) {a b : Word} (v : Word) (h : b ≠ a) :
    (m.write a v).read b = m.read b := by
  have hab : b.toNat ≠ a.toNat := fun e => h (BitVec.eq_of_toNat_eq e)
  simp only [Memory.write, Memory.read, Memory.hiKey, Memory.loKey]
  repeat rw [Memory.getByte_putByte_other _ _ (by omega)]

theorem Memory.read_write (m : Memory) (a b v : Word) : (m.write a v).read b = if b = a then v else m.read b := by
  split
  · next h => subst h; exact m.read_write_same b v
  · next h => exact m.read_write_other v h

@[simp] theorem Memory.read_nil (a : Word) : Memory.read [] a = 0 := by
  simp [Memory.read, Memory.getByte, Config.unlistedByte]

/-! ## The canonical form -/

theorem Memory.mem_insertByte {m : Memory} {k : Nat} {v : Byte} {c : Host.Cell}
    (h : c ∈ Memory.insertByte k v m) : c = (k, v) ∨ c ∈ m := by
  induction m with
  | nil => simpa [Memory.insertByte] using h
  | cons d rest ih =>
    obtain ⟨j, u⟩ := d
    simp only [Memory.insertByte] at h
    split at h
    · simpa using h
    · rcases List.mem_cons.mp h with h | h
      · exact .inr (by simp [h])
      · rcases ih h with h | h
        · exact .inl h
        · exact .inr (by simp [h])

theorem Memory.wf_insertByte {m : Memory} {k : Nat} {v : Byte} (hm : m.wf) (hk : k < Memory.byteCount)
    (hv : v ≠ Config.unlistedByte) (fresh : ∀ c ∈ m, c.1 ≠ k) : Memory.wf (Memory.insertByte k v m) := by
  refine ⟨?_, fun c hc => ?_⟩
  · have hs := hm.1
    clear hm
    induction m with
    | nil => simp [Memory.insertByte]
    | cons d rest ih =>
      obtain ⟨j, u⟩ := d
      have hj : j ≠ k := fresh (j, u) (by simp)
      obtain ⟨hfirst, hrest⟩ := List.pairwise_cons.mp hs
      simp only [Memory.insertByte]
      split
      · next hlt =>
        refine List.pairwise_cons.mpr ⟨fun c hc => ?_, hs⟩
        rcases List.mem_cons.mp hc with rfl | hc
        · exact hlt
        · exact Nat.lt_trans hlt (hfirst c hc)
      · next hlt =>
        refine List.pairwise_cons.mpr ⟨fun c hc => ?_, ih (fun c hc => fresh c (by simp [hc])) hrest⟩
        rcases Memory.mem_insertByte hc with rfl | hc
        · show j < k
          omega
        · exact hfirst c hc
  · rcases Memory.mem_insertByte hc with rfl | hc
    · exact ⟨hk, hv⟩
    · exact hm.2 c hc

theorem Memory.wf_putByte {m : Memory} {k : Nat} (v : Byte) (hm : m.wf) (hk : k < Memory.byteCount) :
    (m.putByte k v).wf := by
  have others : Memory.wf (m.filter (fun c => c.1 ≠ k)) :=
    ⟨hm.1.filter _, fun c hc => hm.2 c (List.mem_filter.mp hc).1⟩
  unfold Memory.putByte
  split
  · exact others
  · next hv =>
    exact Memory.wf_insertByte others hk hv fun c hc => by simpa using (List.mem_filter.mp hc).2

theorem Memory.wf_write {m : Memory} (a v : Word) (hm : m.wf) : (m.write a v).wf := by
  have ha := a.isLt
  exact Memory.wf_putByte _ (Memory.wf_putByte _ hm (by simp [Memory.hiKey, Memory.byteCount]; omega))
    (by simp [Memory.loKey, Memory.byteCount]; omega)

theorem Memory.wf_nil : Memory.wf [] := by simp [Memory.wf]

theorem Memory.wf_storeFrom {m : Memory} (k : Nat) (ws : List Word) (hm : m.wf) : (Memory.storeFrom k ws m).wf := by
  induction ws generalizing k m with
  | nil => exact hm
  | cons w ws ih =>
    simp only [Memory.storeFrom]
    split
    · exact ih _ (Memory.wf_write _ _ hm)
    · exact hm

theorem Memory.wf_ofImages (images : List Image) : (Memory.ofImages images).wf := by
  suffices h : ∀ m : Memory, m.wf → (images.foldl Memory.loadImage m).wf from h [] Memory.wf_nil
  induction images with
  | nil => exact fun m hm => hm
  | cons img rest ih => exact fun m hm => ih _ (Memory.wf_storeFrom _ _ hm)

end Sys2Proof.Machine
end

