-- ==== Sys2Proof/Laws/State.lean ====
section
/-! SUPPORT. What each update of the state does to each field: true by definition, and simp lemmas, so that no later
proof unfolds a record update; and the laws of the register file. -/

namespace Sys2Proof.Machine

/-! ## The register file -/

@[simp] theorem Gprs.get_set_same (g : Gprs) (r : Reg) (v : Word) : (g.set r v).get r = v := by
  cases r <;> rfl

theorem Gprs.get_set_other (g : Gprs) {r q : Reg} (h : q ≠ r) (v : Word) : (g.set r v).get q = g.get q := by
  cases r <;> cases q <;> first | rfl | exact absurd rfl h

theorem Gprs.get_set (g : Gprs) (r q : Reg) (v : Word) : (g.set r v).get q = if q = r then v else g.get q := by
  split
  · next h => subst h; exact g.get_set_same q v
  · next h => exact g.get_set_other h v

theorem Gprs.ext_get {g h : Gprs} (eq : ∀ r, g.get r = h.get r) : g = h := by
  have e0 := eq .r0; have e1 := eq .r1; have e2 := eq .r2; have e3 := eq .r3
  have e4 := eq .r4; have e5 := eq .r5; have e6 := eq .r6; have e7 := eq .r7
  cases g; cases h; simp_all [Gprs.get]

variable (s : State)

@[simp] theorem State.reg_setReg_same (r : Reg) (v : Word) : (s.setReg r v).reg r = v := s.gprs.get_set_same r v

theorem State.reg_setReg (r q : Reg) (v : Word) : (s.setReg r v).reg q = if q = r then v else s.reg q :=
  s.gprs.get_set r q v

@[simp] theorem State.reg_writeResult_same (r : Reg) (v : Word) : (s.writeResult r v).reg r = v :=
  s.gprs.get_set_same r v

theorem State.reg_writeResult (r q : Reg) (v : Word) : (s.writeResult r v).reg q = if q = r then v else s.reg q :=
  s.gprs.get_set r q v

@[simp] theorem State.writeResult_cond (r : Reg) (v : Word) : (s.writeResult r v).cond = signCond v := by
  simp [State.writeResult, State.setCC]

@[simp] theorem State.reg_link_r7 : s.link.reg .r7 = s.pc := s.gprs.get_set_same .r7 s.pc

theorem State.reg_link_other {q : Reg} (h : q ≠ .r7) : s.link.reg q = s.reg q := s.gprs.get_set_other h s.pc

@[simp] theorem State.reg_link_r0 : s.link.reg .r0 = s.reg .r0 := rfl

/-! ## setReg -/

@[simp] theorem State.setReg_gprs (r : Reg) (v : Word) : (s.setReg r v).gprs = s.gprs.set r v := rfl
@[simp] theorem State.setReg_pc (r : Reg) (v : Word) : (s.setReg r v).pc = s.pc := rfl
@[simp] theorem State.setReg_cond (r : Reg) (v : Word) : (s.setReg r v).cond = s.cond := rfl
@[simp] theorem State.setReg_mem (r : Reg) (v : Word) : (s.setReg r v).mem = s.mem := rfl
@[simp] theorem State.setReg_run (r : Reg) (v : Word) : (s.setReg r v).run = s.run := rfl
@[simp] theorem State.setReg_fault (r : Reg) (v : Word) : (s.setReg r v).fault = s.fault := rfl
@[simp] theorem State.setReg_kbdIn (r : Reg) (v : Word) : (s.setReg r v).kbdIn = s.kbdIn := rfl
@[simp] theorem State.setReg_conOut (r : Reg) (v : Word) : (s.setReg r v).conOut = s.conOut := rfl
@[simp] theorem State.setReg_hold (r : Reg) (v : Word) : (s.setReg r v).hold = s.hold := rfl

/-! ## setPc -/

@[simp] theorem State.setPc_gprs (v : Word) : (s.setPc v).gprs = s.gprs := rfl
@[simp] theorem State.setPc_pc (v : Word) : (s.setPc v).pc = v := rfl
@[simp] theorem State.setPc_cond (v : Word) : (s.setPc v).cond = s.cond := rfl
@[simp] theorem State.setPc_mem (v : Word) : (s.setPc v).mem = s.mem := rfl
@[simp] theorem State.setPc_run (v : Word) : (s.setPc v).run = s.run := rfl
@[simp] theorem State.setPc_fault (v : Word) : (s.setPc v).fault = s.fault := rfl
@[simp] theorem State.setPc_kbdIn (v : Word) : (s.setPc v).kbdIn = s.kbdIn := rfl
@[simp] theorem State.setPc_conOut (v : Word) : (s.setPc v).conOut = s.conOut := rfl
@[simp] theorem State.setPc_hold (v : Word) : (s.setPc v).hold = s.hold := rfl
@[simp] theorem State.reg_setPc (v : Word) (q : Reg) : (s.setPc v).reg q = s.reg q := rfl

/-! ## setCC -/

@[simp] theorem State.setCC_gprs (r : Reg) : (s.setCC r).gprs = s.gprs := rfl
@[simp] theorem State.setCC_pc (r : Reg) : (s.setCC r).pc = s.pc := rfl
@[simp] theorem State.setCC_cond (r : Reg) : (s.setCC r).cond = signCond (s.reg r) := rfl
@[simp] theorem State.setCC_mem (r : Reg) : (s.setCC r).mem = s.mem := rfl
@[simp] theorem State.setCC_run (r : Reg) : (s.setCC r).run = s.run := rfl
@[simp] theorem State.setCC_fault (r : Reg) : (s.setCC r).fault = s.fault := rfl
@[simp] theorem State.setCC_kbdIn (r : Reg) : (s.setCC r).kbdIn = s.kbdIn := rfl
@[simp] theorem State.setCC_conOut (r : Reg) : (s.setCC r).conOut = s.conOut := rfl
@[simp] theorem State.setCC_hold (r : Reg) : (s.setCC r).hold = s.hold := rfl
@[simp] theorem State.reg_setCC (r : Reg) (q : Reg) : (s.setCC r).reg q = s.reg q := rfl

/-! ## writeResult -/

@[simp] theorem State.writeResult_gprs (r : Reg) (v : Word) : (s.writeResult r v).gprs = s.gprs.set r v := rfl
@[simp] theorem State.writeResult_pc (r : Reg) (v : Word) : (s.writeResult r v).pc = s.pc := rfl
@[simp] theorem State.writeResult_mem (r : Reg) (v : Word) : (s.writeResult r v).mem = s.mem := rfl
@[simp] theorem State.writeResult_run (r : Reg) (v : Word) : (s.writeResult r v).run = s.run := rfl
@[simp] theorem State.writeResult_fault (r : Reg) (v : Word) : (s.writeResult r v).fault = s.fault := rfl
@[simp] theorem State.writeResult_kbdIn (r : Reg) (v : Word) : (s.writeResult r v).kbdIn = s.kbdIn := rfl
@[simp] theorem State.writeResult_conOut (r : Reg) (v : Word) : (s.writeResult r v).conOut = s.conOut := rfl
@[simp] theorem State.writeResult_hold (r : Reg) (v : Word) : (s.writeResult r v).hold = s.hold := rfl

/-! ## consoleWriteSeq -/

@[simp] theorem State.consoleWriteSeq_gprs (cs : List Byte) : (s.consoleWriteSeq cs).gprs = s.gprs := rfl
@[simp] theorem State.consoleWriteSeq_pc (cs : List Byte) : (s.consoleWriteSeq cs).pc = s.pc := rfl
@[simp] theorem State.consoleWriteSeq_cond (cs : List Byte) : (s.consoleWriteSeq cs).cond = s.cond := rfl
@[simp] theorem State.consoleWriteSeq_mem (cs : List Byte) : (s.consoleWriteSeq cs).mem = s.mem := rfl
@[simp] theorem State.consoleWriteSeq_run (cs : List Byte) : (s.consoleWriteSeq cs).run = s.run := rfl
@[simp] theorem State.consoleWriteSeq_fault (cs : List Byte) : (s.consoleWriteSeq cs).fault = s.fault := rfl
@[simp] theorem State.consoleWriteSeq_kbdIn (cs : List Byte) : (s.consoleWriteSeq cs).kbdIn = s.kbdIn := rfl
@[simp] theorem State.consoleWriteSeq_conOut (cs : List Byte) : (s.consoleWriteSeq cs).conOut = s.conOut ++ cs := rfl
@[simp] theorem State.consoleWriteSeq_hold (cs : List Byte) : (s.consoleWriteSeq cs).hold = s.hold := rfl
@[simp] theorem State.reg_consoleWriteSeq (cs : List Byte) (q : Reg) : (s.consoleWriteSeq cs).reg q = s.reg q := rfl

/-! ## consoleWrite -/

@[simp] theorem State.consoleWrite_gprs (b : Byte) : (s.consoleWrite b).gprs = s.gprs := rfl
@[simp] theorem State.consoleWrite_pc (b : Byte) : (s.consoleWrite b).pc = s.pc := rfl
@[simp] theorem State.consoleWrite_cond (b : Byte) : (s.consoleWrite b).cond = s.cond := rfl
@[simp] theorem State.consoleWrite_mem (b : Byte) : (s.consoleWrite b).mem = s.mem := rfl
@[simp] theorem State.consoleWrite_run (b : Byte) : (s.consoleWrite b).run = s.run := rfl
@[simp] theorem State.consoleWrite_fault (b : Byte) : (s.consoleWrite b).fault = s.fault := rfl
@[simp] theorem State.consoleWrite_kbdIn (b : Byte) : (s.consoleWrite b).kbdIn = s.kbdIn := rfl
@[simp] theorem State.consoleWrite_conOut (b : Byte) : (s.consoleWrite b).conOut = s.conOut ++ [b] := rfl
@[simp] theorem State.consoleWrite_hold (b : Byte) : (s.consoleWrite b).hold = s.hold := rfl
@[simp] theorem State.reg_consoleWrite (b : Byte) (q : Reg) : (s.consoleWrite b).reg q = s.reg q := rfl

/-! ## memWrite -/

@[simp] theorem State.memWrite_gprs (a v : Word) : (s.memWrite a v).gprs = s.gprs := rfl
@[simp] theorem State.memWrite_pc (a v : Word) : (s.memWrite a v).pc = s.pc := rfl
@[simp] theorem State.memWrite_cond (a v : Word) : (s.memWrite a v).cond = s.cond := rfl
@[simp] theorem State.memWrite_mem (a v : Word) : (s.memWrite a v).mem = s.mem.write a v := rfl
@[simp] theorem State.memWrite_run (a v : Word) : (s.memWrite a v).run = s.run := rfl
@[simp] theorem State.memWrite_fault (a v : Word) : (s.memWrite a v).fault = s.fault := rfl
@[simp] theorem State.memWrite_kbdIn (a v : Word) : (s.memWrite a v).kbdIn = s.kbdIn := rfl
@[simp] theorem State.memWrite_conOut (a v : Word) : (s.memWrite a v).conOut = s.conOut := rfl
@[simp] theorem State.memWrite_hold (a v : Word) : (s.memWrite a v).hold = s.hold := rfl
@[simp] theorem State.reg_memWrite (a v : Word) (q : Reg) : (s.memWrite a v).reg q = s.reg q := rfl

/-! ## raise -/

@[simp] theorem State.raise_gprs (c : Condition) : (s.raise c).gprs = s.gprs := rfl
@[simp] theorem State.raise_pc (c : Condition) : (s.raise c).pc = s.pc := rfl
@[simp] theorem State.raise_cond (c : Condition) : (s.raise c).cond = s.cond := rfl
@[simp] theorem State.raise_mem (c : Condition) : (s.raise c).mem = s.mem := rfl
@[simp] theorem State.raise_run (c : Condition) : (s.raise c).run = .faulted := rfl
@[simp] theorem State.raise_fault (c : Condition) : (s.raise c).fault = some { condition := c, addr := s.ia } := rfl
@[simp] theorem State.raise_kbdIn (c : Condition) : (s.raise c).kbdIn = s.kbdIn := rfl
@[simp] theorem State.raise_conOut (c : Condition) : (s.raise c).conOut = s.conOut := rfl
@[simp] theorem State.raise_hold (c : Condition) : (s.raise c).hold = s.hold := rfl
@[simp] theorem State.reg_raise (c : Condition) (q : Reg) : (s.raise c).reg q = s.reg q := rfl

/-! ## link -/

@[simp] theorem State.link_gprs : (s.link).gprs = s.gprs.set .r7 s.pc := rfl
@[simp] theorem State.link_pc : (s.link).pc = s.pc := rfl
@[simp] theorem State.link_cond : (s.link).cond = s.cond := rfl
@[simp] theorem State.link_mem : (s.link).mem = s.mem := rfl
@[simp] theorem State.link_run : (s.link).run = s.run := rfl
@[simp] theorem State.link_fault : (s.link).fault = s.fault := rfl
@[simp] theorem State.link_kbdIn : (s.link).kbdIn = s.kbdIn := rfl
@[simp] theorem State.link_conOut : (s.link).conOut = s.conOut := rfl
@[simp] theorem State.link_hold : (s.link).hold = s.hold := rfl

/-! ## typeKeys -/

@[simp] theorem State.typeKeys_gprs (cs : List Byte) : (s.typeKeys cs).gprs = s.gprs := rfl
@[simp] theorem State.typeKeys_pc (cs : List Byte) : (s.typeKeys cs).pc = s.pc := rfl
@[simp] theorem State.typeKeys_cond (cs : List Byte) : (s.typeKeys cs).cond = s.cond := rfl
@[simp] theorem State.typeKeys_mem (cs : List Byte) : (s.typeKeys cs).mem = s.mem := rfl
@[simp] theorem State.typeKeys_run (cs : List Byte) : (s.typeKeys cs).run = s.run := rfl
@[simp] theorem State.typeKeys_fault (cs : List Byte) : (s.typeKeys cs).fault = s.fault := rfl
@[simp] theorem State.typeKeys_kbdIn (cs : List Byte) : (s.typeKeys cs).kbdIn = s.kbdIn ++ cs := rfl
@[simp] theorem State.typeKeys_conOut (cs : List Byte) : (s.typeKeys cs).conOut = s.conOut := rfl
@[simp] theorem State.typeKeys_hold (cs : List Byte) : (s.typeKeys cs).hold = s.hold := rfl
@[simp] theorem State.reg_typeKeys (cs : List Byte) (q : Reg) : (s.typeKeys cs).reg q = s.reg q := rfl

end Sys2Proof.Machine
end

