-- ==== Sys2Proof/Laws/Ops.lean ====
section
/-! SUPPORT. What each shared operation can do, said once: later proofs cite these and unfold no operation. -/

namespace Sys2Proof.Machine

/-! ## Registers and flags -/

/-- The code SetCC writes says the sign of the word (10_state.md rule R18). -/
theorem condMatches_signCond (v : Word) : CondMatches (signCond v) v := by
  have msb : v.getLsbD 15 = decide (2 ^ 15 ≤ v.toNat) := by
    simpa [BitVec.msb_eq_getLsbD_last] using BitVec.msb_eq_decide v
  have zero : v = 0 ↔ v.toNat = 0 := ⟨fun h => by simp [h], fun h => BitVec.eq_of_toNat_eq (by simpa using h)⟩
  have value : v.toInt = if v.toNat < 2 ^ 15 then (v.toNat : Int) else v.toNat - 2 ^ 16 := by
    rw [BitVec.toInt_eq_toNat_cond]; split <;> split <;> first | rfl | omega
  have bound := v.isLt
  unfold CondMatches signCond
  simp only [msb, zero]
  rw [value]
  refine ⟨?_, ?_, ?_⟩ <;> split <;> (try split) <;> (try split) <;> simp_all <;> omega

/-- The code of a zero-extended character (44_trap.md rules R131, R134). -/
theorem signCond_zext16 (c : Byte) : signCond (zext16 c) = if c = 0 then .zero else .positive := by
  revert c; decide

theorem State.writeResult_sameRegsBut (s : State) (r : Reg) (v : Word) : SameRegsBut [r] s (s.writeResult r v) :=
  fun q hq => by rw [State.reg_writeResult, if_neg (by simpa using hq)]

theorem State.link_sameRegsBut (s : State) : SameRegsBut [.r7] s s.link :=
  fun _ hq => State.reg_link_other s (by simpa using hq)

/-! ## MemWrite -/

/-- What a read of the array sees after a store (20_memory.md rule R44). -/
theorem State.memWrite_read (s : State) (a v b : Word) :
    (s.memWrite a v).mem.read b = if b = a then v else s.mem.read b := by
  rw [State.memWrite_mem, Memory.read_write]

theorem State.memWrite_read_same (s : State) (a v : Word) : (s.memWrite a v).mem.read a = v := by
  rw [State.memWrite_mem, Memory.read_write_same]

theorem State.memWrite_read_other (s : State) {a b : Word} (v : Word) (h : b ≠ a) :
    (s.memWrite a v).mem.read b = s.mem.read b := by
  rw [State.memWrite_mem, Memory.read_write_other _ _ h]

theorem State.memWrite_sameMemBut (s : State) (a v : Word) : SameMemBut [a] s (s.memWrite a v) := fun b hb =>
  s.memWrite_read_other v fun e => hb (by simp [e])

theorem State.memWrite_wf {s : State} (a v : Word) (h : s.mem.wf) : (s.memWrite a v).mem.wf := by
  rw [State.memWrite_mem]; exact Memory.wf_write _ _ h

/-! ## What a keyboard poll, or a read that may poll, can change -/

/-- `t` differs from `s` at most in the two keyboard cells and in characters taken from the front of kbd_in. -/
structure PollFrame (s t : State) : Prop where
  gprs : t.gprs = s.gprs
  pc : t.pc = s.pc
  cond : t.cond = s.cond
  run : t.run = s.run
  fault : t.fault = s.fault
  conOut : t.conOut = s.conOut
  hold : t.hold = s.hold
  kbdIn : t.kbdIn <:+ s.kbdIn
  mem : SameMemBut [Config.mrKbsr, Config.mrKbdr] s t
  wf : s.mem.wf → t.mem.wf

theorem PollFrame.refl (s : State) : PollFrame s s :=
  { gprs := rfl, pc := rfl, cond := rfl, run := rfl, fault := rfl, conOut := rfl, hold := rfl,
    kbdIn := List.suffix_refl _, mem := fun _ _ => rfl, wf := id }

theorem PollFrame.reg {s t : State} (h : PollFrame s t) (r : Reg) : t.reg r = s.reg r := by
  simp [State.reg, h.gprs]

/-- A poll that finds no key (20_memory.md rule R47). -/
theorem State.kbdPoll_nil {s : State} (h : s.kbdIn = []) : s.kbdPoll = s.memWrite Config.mrKbsr 0x0000 := by
  simp [State.kbdPoll, State.consoleRead, h]

/-- A poll that finds a key (20_memory.md rule R46). -/
theorem State.kbdPoll_cons {s : State} {c : Byte} {rest : List Byte} (h : s.kbdIn = c :: rest) :
    s.kbdPoll = ({ s with kbdIn := rest }.memWrite Config.mrKbsr (s.mem.read Config.mrKbsr ||| 0x8000)).memWrite
      Config.mrKbdr (zext16 c) := by
  simp [State.kbdPoll, State.consoleRead, h]

theorem State.kbdPoll_frame (s : State) : PollFrame s s.kbdPoll := by
  cases h : s.kbdIn with
  | nil =>
    rw [State.kbdPoll_nil h]
    refine { PollFrame.refl s with mem := fun a ha => ?_, wf := fun hw => ?_ }
    · exact s.memWrite_read_other _ fun e => ha (by simp [e])
    · exact State.memWrite_wf _ _ hw
  | cons c rest =>
    rw [State.kbdPoll_cons h]
    refine { PollFrame.refl s with kbdIn := ?_, mem := fun a ha => ?_, wf := fun hw => ?_ }
    · rw [h]; exact List.suffix_cons c rest
    · rw [State.memWrite_read_other _ _ fun e => ha (by simp [e]),
        State.memWrite_read_other _ _ fun e => ha (by simp [e])]
    · exact State.memWrite_wf _ _ (State.memWrite_wf _ _ hw)

/-! ## MemRead -/

/-- A read of any other address is a pure observation (20_memory.md rule R43). -/
theorem State.memRead_of_ne {s : State} {a : Word} (h : a ≠ Config.mrKbsr) : s.memRead a = (s.mem.read a, s) := by
  simp [State.memRead, h]

/-- A read of the status address polls, then answers the status cell (20_memory.md rule R43). -/
theorem State.memRead_kbsr (s : State) :
    s.memRead Config.mrKbsr = (s.kbdPoll.mem.read Config.mrKbsr, s.kbdPoll) := by
  simp [State.memRead]

/-- MemRead answers the cell as it stands after the read. -/
theorem State.memRead_value (s : State) (a : Word) : (s.memRead a).1 = (s.memRead a).2.mem.read a := rfl

theorem State.memRead_frame (s : State) (a : Word) : PollFrame s (s.memRead a).2 := by
  by_cases h : a = Config.mrKbsr
  · subst h; rw [State.memRead_kbsr]; exact s.kbdPoll_frame
  · rw [State.memRead_of_ne h]; exact PollFrame.refl s

@[simp] theorem State.memRead_gprs (s : State) (a : Word) : (s.memRead a).2.gprs = s.gprs := (s.memRead_frame a).gprs
@[simp] theorem State.memRead_reg (s : State) (a : Word) (r : Reg) : (s.memRead a).2.reg r = s.reg r :=
  (s.memRead_frame a).reg r
@[simp] theorem State.memRead_pc (s : State) (a : Word) : (s.memRead a).2.pc = s.pc := (s.memRead_frame a).pc
@[simp] theorem State.memRead_cond (s : State) (a : Word) : (s.memRead a).2.cond = s.cond := (s.memRead_frame a).cond
@[simp] theorem State.memRead_run (s : State) (a : Word) : (s.memRead a).2.run = s.run := (s.memRead_frame a).run
@[simp] theorem State.memRead_fault (s : State) (a : Word) : (s.memRead a).2.fault = s.fault :=
  (s.memRead_frame a).fault
@[simp] theorem State.memRead_conOut (s : State) (a : Word) : (s.memRead a).2.conOut = s.conOut :=
  (s.memRead_frame a).conOut
@[simp] theorem State.memRead_hold (s : State) (a : Word) : (s.memRead a).2.hold = s.hold := (s.memRead_frame a).hold

/-- What LD, LDI's second read and LDR do to the state (43_load_store.md rules R120 to R122). -/
theorem State.loadFrom_loads (s : State) (dr : Reg) (ea : Word) : LoadsFrom ea dr s (s.loadFrom dr ea) := by
  unfold State.loadFrom LoadsFrom
  refine ⟨by simp, by simpa using condMatches_signCond _, fun r hr => ?_, by simp, fun _ _ => rfl, ⟨rfl, rfl⟩, ?_,
    fun h => ?_⟩
  · rw [(s.memRead ea).2.writeResult_sameRegsBut dr _ r hr, State.memRead_reg]
  · simp [SameControl]
  · simp [State.memRead_of_ne h, SameMemBut, SameConsole]

/-- MemRead neither reads nor writes the general registers. -/
theorem State.memRead_withGprs (s : State) (g : Gprs) (a : Word) :
    ({ s with gprs := g } : State).memRead a = ((s.memRead a).1, { (s.memRead a).2 with gprs := g }) := by
  by_cases h : a = Config.mrKbsr
  · subst h
    simp only [State.memRead_kbsr]
    obtain hk | ⟨c, rest, hk⟩ : s.kbdIn = [] ∨ ∃ c rest, s.kbdIn = c :: rest := by cases s.kbdIn <;> simp
    · rw [State.kbdPoll_nil hk, State.kbdPoll_nil (s := { s with gprs := g }) hk]; rfl
    · rw [State.kbdPoll_cons hk, State.kbdPoll_cons (s := { s with gprs := g }) hk]; rfl
  · rw [State.memRead_of_ne h, State.memRead_of_ne h]

/-! ## Fetch -/

/-- The fetch is MemRead at pc and the increment (40_cycle.md rules R91, R92). -/
theorem State.fetch_eq (s : State) : s.fetch = ((s.memRead s.pc).1, (s.memRead s.pc).2.setPc (s.pc + 1)) := by
  simp [State.fetch]

/-- A fetch from anywhere but the status address changes pc alone. -/
theorem State.fetch_of_ne {s : State} (h : s.pc ≠ Config.mrKbsr) :
    s.fetch = (s.mem.read s.pc, s.setPc (s.pc + 1)) := by
  simp [State.fetch_eq, State.memRead_of_ne h]

/-! ## ConsoleRead and the routines that wait for it -/

theorem State.consoleRead_nil {s : State} (h : s.kbdIn = []) : s.consoleRead = none := by simp [State.consoleRead, h]

theorem State.consoleRead_cons {s : State} {c : Byte} {rest : List Byte} (h : s.kbdIn = c :: rest) :
    s.consoleRead = some (c, { s with kbdIn := rest }) := by simp [State.consoleRead, h]

/-- With no character waiting, neither routine's read completes (60_exceptions.md rule R163). -/
theorem State.waitedRead_nil {s : State} (h : s.kbdIn = []) (w : ConsoleWait) : s.waitedRead w = none := by
  cases w <;> simp [State.waitedRead, State.getcRead, State.inputRead, State.consoleRead_nil h]

/-- What a routine echoes of the character it reads: GETC nothing, IN the character (rules R131, R134). -/
def ConsoleWait.echo (c : Byte) : ConsoleWait → List Byte
  | .getc => []
  | .input => [c]

/-- With a character waiting, the read completes: the character leaves kbd_in, is echoed by IN, and goes to R0 and the
flags (rules R131, R134). -/
theorem State.waitedRead_cons {s : State} {c : Byte} {rest : List Byte} (h : s.kbdIn = c :: rest) (w : ConsoleWait) :
    s.waitedRead w = some { s with
      kbdIn := rest, conOut := s.conOut ++ w.echo c, gprs := s.gprs.set .r0 (zext16 c), cond := signCond (zext16 c) } := by
  cases w <;>
    simp [State.waitedRead, State.getcRead, State.inputRead, State.consoleRead_cons h, State.writeResult,
      State.setCC, State.setReg, State.consoleWrite, State.consoleWriteSeq, ConsoleWait.echo, State.reg]

/-- What a completed console read changes: R0, cond, one character of kbd_in, and con_out at its end. -/
theorem State.waitedRead_cases {s t : State} {w : ConsoleWait} (h : s.waitedRead w = some t) :
    ∃ c rest, s.kbdIn = c :: rest ∧ t = { s with
      kbdIn := rest, conOut := s.conOut ++ w.echo c, gprs := s.gprs.set .r0 (zext16 c), cond := signCond (zext16 c) } := by
  cases hk : s.kbdIn with
  | nil => rw [State.waitedRead_nil hk] at h; cases h
  | cons c rest =>
    rw [State.waitedRead_cons hk] at h
    exact ⟨c, rest, rfl, (Option.some.inj h).symm⟩

/-- The state a completed console read gives (rules R131, R134). -/
def State.afterRead (s : State) (w : ConsoleWait) (c : Byte) (rest : List Byte) : State :=
  { s with
    kbdIn := rest, conOut := s.conOut ++ w.echo c, gprs := s.gprs.set .r0 (zext16 c), cond := signCond (zext16 c) }

theorem readOrHold_nil {s : State} (h : s.kbdIn = []) (w : ConsoleWait) :
    readOrHold w s = .next { s with hold := some w } := by
  simp only [readOrHold, State.waitedRead_nil h]

theorem readOrHold_cons {s : State} {c : Byte} {rest : List Byte} (h : s.kbdIn = c :: rest) (w : ConsoleWait) :
    readOrHold w s = .next (s.afterRead w c rest) := by
  simp only [readOrHold, State.waitedRead_cons h, State.afterRead]

/-- A console read completes with the oldest character, or holds because there is none (60_exceptions.md rule R163). -/
theorem readOrHold_cases {s t : State} {w : ConsoleWait} (h : readOrHold w s = .next t) :
    (∃ c rest, s.kbdIn = c :: rest ∧ t = s.afterRead w c rest) ∨ (s.kbdIn = [] ∧ t = { s with hold := some w }) := by
  cases hk : s.kbdIn with
  | nil => rw [readOrHold_nil hk] at h; cases h; exact .inr ⟨rfl, by rw [hk]⟩
  | cons c rest => rw [readOrHold_cons hk] at h; cases h; exact .inl ⟨c, rest, rfl, rfl⟩

theorem resumeHold_nil {s : State} (h : s.kbdIn = []) (w : ConsoleWait) : resumeHold w s = .next s := by
  simp only [resumeHold, State.waitedRead_nil h]

theorem resumeHold_cons {s : State} {c : Byte} {rest : List Byte} (h : s.kbdIn = c :: rest) (w : ConsoleWait) :
    resumeHold w s = .next { s.afterRead w c rest with hold := none } := by
  simp only [resumeHold, State.waitedRead_cons h, State.afterRead]

/-- A held machine completes its read, or stays as it is (60_exceptions.md rule R163). -/
theorem resumeHold_cases {s t : State} {w : ConsoleWait} (h : resumeHold w s = .next t) :
    (∃ c rest, s.kbdIn = c :: rest ∧ t = { s.afterRead w c rest with hold := none }) ∨ (s.kbdIn = [] ∧ t = s) := by
  cases hk : s.kbdIn with
  | nil => rw [resumeHold_nil hk] at h; cases h; exact .inr ⟨rfl, rfl⟩
  | cons c rest => rw [resumeHold_cons hk] at h; cases h; exact .inl ⟨c, rest, rfl, rfl⟩

/-! ## The string walk -/

theorem walk_zero (chars : Word → List Byte) (a : Word) (s : State) : walk chars 0 a s = none := rfl

theorem walk_succ (chars : Word → List Byte) (n : Nat) (a : Word) (s : State) :
    walk chars (n + 1) a s =
      if (s.memRead a).1 = 0x0000 then some (s.memRead a).2
      else walk chars n (a + 1) ((s.memRead a).2.consoleWriteSeq (chars (s.memRead a).1)) := rfl

/-- Everything a walk can change: con_out grows at its end, and each read may have polled (44_trap.md rule R138). -/
theorem walk_frame {chars : Word → List Byte} {n : Nat} {a : Word} {s t : State} (h : walk chars n a s = some t) :
    ∃ out, PollFrame { s with conOut := s.conOut ++ out } t := by
  induction n generalizing a s with
  | zero => cases h
  | succ n ih =>
    rw [walk_succ] at h
    have f := s.memRead_frame a
    split at h
    · cases h
      exact ⟨[], { f with conOut := by simp }⟩
    · obtain ⟨out, g⟩ := ih h
      refine ⟨chars (s.memRead a).1 ++ out, ?_⟩
      exact {
        gprs := g.gprs.trans f.gprs, pc := g.pc.trans f.pc, cond := g.cond.trans f.cond, run := g.run.trans f.run,
        fault := g.fault.trans f.fault, hold := g.hold.trans f.hold
        conOut := by rw [g.conOut]; simp
        kbdIn := g.kbdIn.trans f.kbdIn
        mem := fun b hb => (g.mem b hb).trans (f.mem b hb)
        wf := fun hw => g.wf (f.wf hw) }

/-- A bound that suffices may be raised. -/
theorem walk_of_more {chars : Word → List Byte} {n : Nat} {a : Word} {s t : State} (h : walk chars n a s = some t)
    (k : Nat) : walk chars (n + k) a s = some t := by
  induction n generalizing a s with
  | zero => cases h
  | succ n ih =>
    rw [show n + 1 + k = (n + k) + 1 by omega, walk_succ]
    rw [walk_succ] at h
    split at h
    · next hw => rw [if_pos hw]; exact h
    · next hw => rw [if_neg hw]; exact ih h

/-- A walk neither reads nor writes the general registers. -/
theorem walk_withGprs (chars : Word → List Byte) (n : Nat) (a : Word) (s : State) (g : Gprs) :
    walk chars n a { s with gprs := g } = (walk chars n a s).map (fun t => { t with gprs := g }) := by
  induction n generalizing a s with
  | zero => rfl
  | succ n ih =>
    rw [walk_succ, walk_succ, State.memRead_withGprs]
    dsimp only
    split
    · rfl
    · exact ih _ ((s.memRead a).2.consoleWriteSeq (chars (s.memRead a).1))

theorem walkFromR0_of_walk {chars : Word → List Byte} {s t : State}
    (h : walk chars (walkBound s) (s.reg .r0) s = some t) : walkFromR0 chars s = .next t := by
  simp only [walkFromR0, h]

/-- Everything PUTS and PUTSP can change after the link (44_trap.md rule R138). -/
theorem walkFromR0_frame {chars : Word → List Byte} {s t : State} (h : walkFromR0 chars s = .next t) :
    ∃ out, PollFrame { s with conOut := s.conOut ++ out } t := by
  unfold walkFromR0 at h
  split at h
  · next hw => cases h; exact walk_frame hw
  · cases h

end Sys2Proof.Machine
end

