-- ==== Sys2Proof/Laws/PerInstr.lean ====
section
/-! SUPPORT. The per-instruction family: each constructor's word lies in the row of spec/opcode_table.json it stands
for. -/

namespace Sys2Proof.Laws.EncodesItsRow

/-- A row's `match` and `mask`, copied from spec/opcode_table.json. -/
def row : Instr → Word × Word
  | .br _ _ => (0x0000, 0xF000)
  | .add _ _ _ => (0x1000, 0xF020)
  | .addi _ _ _ => (0x1020, 0xF020)
  | .ld _ _ => (0x2000, 0xF000)
  | .st _ _ => (0x3000, 0xF000)
  | .jsrr _ => (0x4000, 0xF800)
  | .jsr _ => (0x4800, 0xF800)
  | .and _ _ _ => (0x5000, 0xF020)
  | .andi _ _ _ => (0x5020, 0xF020)
  | .ldr _ _ _ => (0x6000, 0xF000)
  | .str _ _ _ => (0x7000, 0xF000)
  | .rti _ => (0x8000, 0xF000)
  | .not _ _ => (0x9000, 0xF000)
  | .ldi _ _ => (0xA000, 0xF000)
  | .sti _ _ => (0xB000, 0xF000)
  | .jmp _ => (0xC000, 0xF000)
  | .res _ => (0xD000, 0xF000)
  | .lea _ _ => (0xE000, 0xF000)
  | .getc => (0xF020, 0xF0FF)
  | .out => (0xF021, 0xF0FF)
  | .puts => (0xF022, 0xF0FF)
  | .input => (0xF023, 0xF0FF)
  | .putsp => (0xF024, 0xF0FF)
  | .halt => (0xF025, 0xF0FF)
  | .trap _ => (0xF000, 0xF000)

/-- The instruction's word has the row's fixed bits. -/
def Statement (i : Instr) : Prop := encode i &&& (row i).2 = (row i).1

theorem br (nzp : BitVec 3) (off : BitVec 9) : Statement (.br nzp off) := by
  unfold Statement row
  ext i hi
  interval_cases i <;> simp [encode, place]

theorem add (dr sr1 sr2 : Reg) : Statement (.add dr sr1 sr2) := by
  unfold Statement row
  ext i hi
  interval_cases i <;> simp [encode, place, placeReg]

theorem addi (dr sr1 : Reg) (imm : BitVec 5) : Statement (.addi dr sr1 imm) := by
  unfold Statement row
  ext i hi
  interval_cases i <;> simp [encode, place, placeReg]

theorem ld (dr : Reg) (off : BitVec 9) : Statement (.ld dr off) := by
  unfold Statement row
  ext i hi
  interval_cases i <;> simp [encode, place, placeReg]

theorem st (sr : Reg) (off : BitVec 9) : Statement (.st sr off) := by
  unfold Statement row
  ext i hi
  interval_cases i <;> simp [encode, place, placeReg]

theorem jsrr (base : Reg) : Statement (.jsrr base) := by
  unfold Statement row
  ext i hi
  interval_cases i <;> simp [encode, place, placeReg]

theorem jsr (off : BitVec 11) : Statement (.jsr off) := by
  unfold Statement row
  ext i hi
  interval_cases i <;> simp [encode, place]

theorem and (dr sr1 sr2 : Reg) : Statement (.and dr sr1 sr2) := by
  unfold Statement row
  ext i hi
  interval_cases i <;> simp [encode, place, placeReg]

theorem andi (dr sr1 : Reg) (imm : BitVec 5) : Statement (.andi dr sr1 imm) := by
  unfold Statement row
  ext i hi
  interval_cases i <;> simp [encode, place, placeReg]

theorem ldr (dr base : Reg) (off : BitVec 6) : Statement (.ldr dr base off) := by
  unfold Statement row
  ext i hi
  interval_cases i <;> simp [encode, place, placeReg]

theorem str (sr base : Reg) (off : BitVec 6) : Statement (.str sr base off) := by
  unfold Statement row
  ext i hi
  interval_cases i <;> simp [encode, place, placeReg]

theorem rti (low : BitVec 12) : Statement (.rti low) := by
  unfold Statement row
  ext i hi
  interval_cases i <;> simp [encode, place]

theorem not (dr sr : Reg) : Statement (.not dr sr) := by
  unfold Statement row
  ext i hi
  interval_cases i <;> simp [encode, place, placeReg]

theorem ldi (dr : Reg) (off : BitVec 9) : Statement (.ldi dr off) := by
  unfold Statement row
  ext i hi
  interval_cases i <;> simp [encode, place, placeReg]

theorem sti (sr : Reg) (off : BitVec 9) : Statement (.sti sr off) := by
  unfold Statement row
  ext i hi
  interval_cases i <;> simp [encode, place, placeReg]

theorem jmp (base : Reg) : Statement (.jmp base) := by
  unfold Statement row
  ext i hi
  interval_cases i <;> simp [encode, place, placeReg]

theorem res (low : BitVec 12) : Statement (.res low) := by
  unfold Statement row
  ext i hi
  interval_cases i <;> simp [encode, place]

theorem lea (dr : Reg) (off : BitVec 9) : Statement (.lea dr off) := by
  unfold Statement row
  ext i hi
  interval_cases i <;> simp [encode, place, placeReg]

theorem getc : Statement .getc := rfl

theorem out : Statement .out := rfl

theorem puts : Statement .puts := rfl

theorem input : Statement .input := rfl

theorem putsp : Statement .putsp := rfl

theorem halt : Statement .halt := rfl

theorem trap (vect : Byte) : Statement (.trap vect) := by
  unfold Statement row
  ext i hi
  interval_cases i <;> simp [encode, place]

end Sys2Proof.Laws.EncodesItsRow
end

