-- ==== Sys2Proof/Machine/Assembly.lean ====
section
/-! DEFINITION. The spec's own assembly notation (30_encoding.md rules R75 to R77) as terms, and the word each stands for.
It has no effect on the hardware (decision D22). -/

namespace Sys2Proof.Machine

/-- A PC-relative operand: "the signed offset itself, relative to the incremented pc" or a label (rule R75). -/
inductive Target where
  | offset (k : Int)
  | label (addr : Word)
  deriving DecidableEq, Repr

/-- One line of assembly (rules R75 and R76). -/
inductive Asm where
  | add (dr sr1 sr2 : Reg)
  | addImm (dr sr1 : Reg) (k : Int)
  | and (dr sr1 sr2 : Reg)
  | andImm (dr sr1 : Reg) (k : Int)
  | not (dr sr : Reg)
  /-- `BRn` to `BRnzp`, by the letters it has. -/
  | brOn (n z p : Bool) (target : Target)
  /-- Bare `BR`, the same as `BRnzp`. -/
  | br (target : Target)
  | jmp (base : Reg)
  | jsr (target : Target)
  | jsrr (base : Reg)
  | ld (dr : Reg) (target : Target)
  | ldi (dr : Reg) (target : Target)
  | lea (dr : Reg) (target : Target)
  | st (sr : Reg) (target : Target)
  | sti (sr : Reg) (target : Target)
  | ldr (dr base : Reg) (k : Int)
  | str (sr base : Reg) (k : Int)
  /-- `TRAP xHH`. -/
  | trap (vect : Byte)
  /-- `TRAP GETC` or bare `GETC`, and so on for the five below. -/
  | getc
  | out
  | puts
  | input
  | putsp
  | halt
  | rti
  /-- `.FILL v`, a data word. -/
  | fill (v : Word)
  /-- `JMP R7`. -/
  | ret
  /-- `BR` with nzp = 000 and offset 0. -/
  | nop
  deriving DecidableEq, Repr

/-- A signed decimal as an n-bit field; `none` outside the field's range. -/
def signedField (n : Nat) (k : Int) : Option (BitVec n) :=
  if -(2 ^ (n - 1) : Int) ≤ k ∧ k < 2 ^ (n - 1) then some (BitVec.ofInt n k) else none

/-- The offset field of a line at address `ia`: for a label, "label address minus incremented pc, which must lie in the
field's range" (rule R75; the difference of words is modulo 65,536, 00_scope.md rule R8). -/
def Target.toField (n : Nat) (ia : Word) : Target → Option (BitVec n)
  | .offset k => signedField n k
  | .label addr => signedField n (addr - (ia + 1)).toInt

/-- The condition field of the letters n, z, p. -/
def maskField (n z p : Bool) : BitVec 3 := (BitVec.ofBool n ++ BitVec.ofBool z) ++ BitVec.ofBool p

/-- The word a line at address `ia` stands for (rules R75 to R77); `none` where an operand does not fit its field, or for
a branch written with no condition letter, which no notation spells but `NOP`. -/
def Asm.assemble (ia : Word) : Asm → Option Word
  | .add dr sr1 sr2 => some (encode (.add dr sr1 sr2))
  | .addImm dr sr1 k => (signedField 5 k).map (fun imm => encode (.addi dr sr1 imm))
  | .and dr sr1 sr2 => some (encode (.and dr sr1 sr2))
  | .andImm dr sr1 k => (signedField 5 k).map (fun imm => encode (.andi dr sr1 imm))
  | .not dr sr => some (encode (.not dr sr))
  | .brOn n z p target =>
    if n || z || p then (target.toField 9 ia).map (fun off => encode (.br (maskField n z p) off)) else none
  | .br target => (target.toField 9 ia).map (fun off => encode (.br 0b111 off))
  | .jmp base => some (encode (.jmp base))
  | .jsr target => (target.toField 11 ia).map (fun off => encode (.jsr off))
  | .jsrr base => some (encode (.jsrr base))
  | .ld dr target => (target.toField 9 ia).map (fun off => encode (.ld dr off))
  | .ldi dr target => (target.toField 9 ia).map (fun off => encode (.ldi dr off))
  | .lea dr target => (target.toField 9 ia).map (fun off => encode (.lea dr off))
  | .st sr target => (target.toField 9 ia).map (fun off => encode (.st sr off))
  | .sti sr target => (target.toField 9 ia).map (fun off => encode (.sti sr off))
  | .ldr dr base k => (signedField 6 k).map (fun off => encode (.ldr dr base off))
  | .str sr base k => (signedField 6 k).map (fun off => encode (.str sr base off))
  | .trap vect => some (encode (.trap vect))
  | .getc => some (encode .getc)
  | .out => some (encode .out)
  | .puts => some (encode .puts)
  | .input => some (encode .input)
  | .putsp => some (encode .putsp)
  | .halt => some (encode .halt)
  | .rti => some (encode (.rti 0))
  | .fill v => some v
  | .ret => some (encode (.jmp .r7))
  | .nop => some (encode (.br 0b000 0))

end Sys2Proof.Machine
end

