-- ==== Sys2Proof/Tests/Slice0.lean ====
section
/-! SUPPORT. Tests of single steps and words. The expected values are the spec's: the words and vectors of
95_test_vectors.md and the examples of files 41 to 45, and the formats of 30_encoding.md rule R63. -/

namespace Sys2Proof.Tests

open Sys2Proof.Machine

/-! ## WellFormed: the smoke test -/

theorem test_illformed_trap_getc : (Instr.trap 0x20).wellFormed = false := by decide
theorem test_illformed_trap_halt : (Instr.trap 0x25).wellFormed = false := by decide
theorem test_wellformed_trap_below : (Instr.trap 0x1F).wellFormed = true := by decide
theorem test_wellformed_trap_above : (Instr.trap 0x26).wellFormed = true := by decide

/-! ## Decode: every constructor, from a word written out as rule R63's format -/

theorem test_decode_br : decode 0b0000010000000101 = .br 0b010 5 := by decide
theorem test_decode_add : decode 0b0001000001000010 = .add .r0 .r1 .r2 := by decide
theorem test_decode_add_ignored : decode 0b0001000001011010 = .add .r0 .r1 .r2 := by decide
theorem test_decode_addi : decode 0b0001000001111111 = .addi .r0 .r1 0b11111 := by decide
theorem test_decode_ld : decode 0b0010001000000110 = .ld .r1 6 := by decide
theorem test_decode_st : decode 0b0011011111111111 = .st .r3 0x1FF := by decide
theorem test_decode_jsrr : decode 0b0100011010111111 = .jsrr .r2 := by decide
theorem test_decode_jsr : decode 0b0100111111111111 = .jsr 0x7FF := by decide
theorem test_decode_and : decode 0b0101110101000011 = .and .r6 .r5 .r3 := by decide
theorem test_decode_andi : decode 0b0101000001110000 = .andi .r0 .r1 0b10000 := by decide
theorem test_decode_ldr : decode 0b0110001110000000 = .ldr .r1 .r6 0 := by decide
theorem test_decode_str : decode 0b0111001110000001 = .str .r1 .r6 1 := by decide
theorem test_decode_rti : decode 0b1000111111111111 = .rti 0xFFF := by decide
theorem test_decode_not : decode 0b1001000001000000 = .not .r0 .r1 := by decide
theorem test_decode_ldi : decode 0b1010000000000001 = .ldi .r0 1 := by decide
theorem test_decode_sti : decode 0b1011001000000111 = .sti .r1 7 := by decide
theorem test_decode_jmp : decode 0b1100111010111111 = .jmp .r2 := by decide
theorem test_decode_res : decode 0b1101101010111100 = .res 0xABC := by decide
theorem test_decode_lea : decode 0b1110101100000000 = .lea .r5 0x100 := by decide
theorem test_decode_getc : decode 0b1111000000100000 = .getc := by decide
theorem test_decode_out : decode 0b1111000000100001 = .out := by decide
theorem test_decode_puts : decode 0b1111000000100010 = .puts := by decide
theorem test_decode_in : decode 0b1111000000100011 = .input := by decide
theorem test_decode_putsp : decode 0b1111000000100100 = .putsp := by decide
theorem test_decode_halt_ignored : decode 0b1111111100100101 = .halt := by decide
theorem test_decode_trap : decode 0b1111000000100110 = .trap 0x26 := by decide

/-- The two ends of rule R70's table and its two illegal values. -/
theorem test_opcode_map : Config.opcodeMap 0b0000 = .br ∧ Config.opcodeMap 0b1111 = .trap ∧
    Config.opcodeMap 0b1000 = .rti ∧ Config.opcodeMap.symm .res = 0b1101 := by decide

/-- The words rule R77 works out. -/
theorem test_encode_worked :
    encode (.add .r0 .r1 .r2) = 0x1042 ∧ encode (.addi .r0 .r1 0x1F) = 0x107F ∧ encode (.not .r0 .r1) = 0x907F ∧
    encode .halt = 0xF025 := by decide
theorem test_decodeBytes_order : decodeBytes [0x10, 0x42, 0xF0] = .ok (.add .r0 .r1 .r2, [0xF0]) := by rfl
theorem test_decodeBytes_truncated : decodeBytes [0x10] = .error .truncated := by rfl
theorem test_decodeTableWord : decodeTableWord 16 0xF023 = some .input := by decide

/-- The words of rules R76, R77 and R110, and operands just past their field. -/
theorem test_assemble :
    (Asm.addImm .r0 .r1 (-1)).assemble 0x3000 = some 0x107F ∧ Asm.ret.assemble 0x3000 = some 0xC1C0 ∧
    Asm.nop.assemble 0x3000 = some 0x0000 ∧ (Asm.brOn true false true (.offset 5)).assemble 0x3000 = some 0x0A05 ∧
    (Asm.brOn false true false (.label 0x3006)).assemble 0x3000 = some 0x0405 ∧
    (Asm.addImm .r0 .r1 16).assemble 0x3000 = none ∧ (Asm.ldr .r0 .r1 (-33)).assemble 0x3000 = none := by decide

/-! ## One step -/

/-- The machine of 95_test_vectors.md's conventions: the word at pc, cells and registers as listed, all else 0. -/
def start (word : Word) (regs cells : List (Nat × Word)) : State :=
  let s := State.reset.withFetchWord 16 word.toNat
  let s := cells.foldl (fun s c => s.memWrite (BitVec.ofNat 16 c.1) c.2) s
  regs.foldl (fun s c => s.setReg (Reg.ofField (BitVec.ofNat 3 c.1)) c.2) s

/-- A view of the next state, `none` where the step stops. -/
def see {α : Type} (f : State → α) : Host.Outcome State Fault Refusal → Option α
  | .next t => some (f t)
  | .fault _ => none
  | .refused _ => none

theorem test_add_wraps : see (fun t => (t.reg .r0, t.cond, t.pc)) (step (start 0x1042 [(1, 0xFFFF), (2, 1)] [])) =
    some (0, .zero, 0x3001) := by decide
theorem test_add_overflow : see (fun t => (t.reg .r0, t.cond)) (step (start 0x1042 [(1, 0x7FFF), (2, 1)] [])) =
    some (0x8000, .negative) := by decide
theorem test_addi_minus_one : see (fun t => (t.reg .r0, t.cond)) (step (start 0x107F [(1, 3)] [])) =
    some (2, .positive) := by decide
theorem test_and : see (fun t => (t.reg .r0, t.cond)) (step (start 0x5042 [(1, 0xF0F0), (2, 0xFF00)] [])) =
    some (0xF000, .negative) := by decide
theorem test_andi_sign_extends : see (fun t => (t.reg .r0, t.cond)) (step (start 0x5070 [(1, 0xABCD)] [])) =
    some (0xABC0, .negative) := by decide
theorem test_not_same_register : see (fun t => (t.reg .r3, t.cond)) (step (start 0x96FF [(3, 0x00FF)] [])) =
    some (0xFF00, .negative) := by decide
theorem test_brz_taken : see (fun t => (t.pc, t.cond)) (step (start 0x0405 [] [])) = some (0x3006, .zero) := by decide
theorem test_brnp_not_taken : see (fun t => t.pc) (step (start 0x0A05 [] [])) = some 0x3001 := by decide
theorem test_jmp : see (fun t => t.pc) (step (start 0xC080 [(2, 0x4000)] [])) = some 0x4000 := by decide
theorem test_jsr_back : see (fun t => (t.reg .r7, t.pc)) (step (start 0x4C00 [] [])) = some (0x3001, 0x2C01) := by decide
theorem test_jsrr_r7 : see (fun t => (t.reg .r7, t.pc)) (step (start 0x41C0 [(7, 0x5000)] [])) =
    some (0x3001, 0x3001) := by decide
theorem test_ld : see (fun t => (t.reg .r1, t.cond)) (step (start 0x2206 [] [(0x3007, 0x8005)])) =
    some (0x8005, .negative) := by decide
theorem test_ld_own_word : see (fun t => t.reg .r1) (step (start 0x23FF [] [])) = some 0x23FF := by decide
theorem test_ldi_flags_from_datum :
    see (fun t => (t.reg .r0, t.cond)) (step (start 0xA001 [] [(0x3002, 0x8000), (0x8000, 0x0000)])) =
    some (0, .zero) := by decide
theorem test_ldr_wraps : see (fun t => (t.reg .r2, t.cond)) (step (start 0x64BF [] [(0xFFFF, 0xBEEF)])) =
    some (0xBEEF, .negative) := by decide
theorem test_lea_sets_cond : see (fun t => (t.reg .r0, t.cond)) (step (start 0xE002 [] [])) =
    some (0x3003, .positive) := by decide
theorem test_st : see (fun t => t.mem.read 0x3004) (step (start 0x3003 [(0, 0x000F)] [])) = some 0x000F := by decide
theorem test_sti : see (fun t => (t.mem.read 0x4000, t.mem.read 0x3008)) (step (start 0xB207 [(1, 0xFF10)] [(0x3008, 0x4000)])) =
    some (0xFF10, 0x4000) := by decide
theorem test_str : see (fun t => t.mem.read 0x300B) (step (start 0x7381 [(1, 0xFF10), (6, 0x300A)] [])) =
    some 0xFF10 := by decide

/-- Row K2: LDI through a pointer to the status address, with a key waiting. -/
theorem test_ldi_polls :
    see (fun t => (t.reg .r0, t.mem.read 0xFE02, t.kbdIn)) (step ((start 0xA001 [] [(0x3002, 0xFE00)]).typeKeys [0x41])) =
    some (0x8000, 0x0041, []) := by decide
/-- Row K3: bits 14:0 of the status cell are kept. -/
theorem test_ldi_polls_keeps_low_bits :
    see (fun t => (t.reg .r0, t.kbdIn))
      (step ((start 0xA001 [] [(0x3002, 0xFE00), (0xFE00, 0x0001)]).typeKeys [0x41, 0x42])) =
    some (0x8001, [0x42]) := by decide
/-- Row K8: a store to the status address does not poll. -/
theorem test_str_does_not_poll :
    see (fun t => (t.mem.read 0xFE00, t.kbdIn)) (step ((start 0x7040 [(0, 0x1234), (1, 0xFE00)] []).typeKeys [0x7A])) =
    some (0x1234, [0x7A]) := by decide

theorem test_getc_high_code :
    see (fun t => (t.reg .r0, t.cond, t.kbdIn)) (step ((start 0xF020 [] []).typeKeys [0xFF, 0x31])) =
    some (0x00FF, .positive, [0x31]) := by decide
theorem test_getc_holds : see (fun t => (t.reg .r7, t.hold, t.run)) (step (start 0xF020 [(0, 0x1234)] [])) =
    some (0x3001, some .getc, .running) := by decide
theorem test_out : see (fun t => (t.conOut, t.reg .r7)) (step (start 0xF021 [(0, 0x1241)] [])) =
    some ([0x41], 0x3001) := by decide
theorem test_puts :
    see (fun t => (t.conOut, t.reg .r0)) (step (start 0xF022 [(0, 0x4000)] [(0x4000, 0x0148), (0x4001, 0xFF00), (0x4002, 0x0049)])) =
    some ([0x48, 0x00, 0x49], 0x4000) := by decide
theorem test_in : see (fun t => (t.conOut, t.reg .r0)) (step ((start 0xF023 [] []).typeKeys [0x7A])) =
    some (Config.inPrompt ++ [0x7A], 0x007A) := by decide
theorem test_in_holds_after_prompt : see (fun t => (t.conOut, t.hold)) (step (start 0xF023 [] [])) =
    some (Config.inPrompt, some .input) := by decide
theorem test_putsp :
    see (fun t => t.conOut) (step (start 0xF024 [(0, 0x4000)] [(0x4000, 0x6548), (0x4001, 0x4100), (0x4002, 0x006F)])) =
    some [0x48, 0x65, 0x00, 0x41, 0x6F] := by decide
/-- Section 2.6: a walk from 0xFDFF ends at the status address, whose poll finds no key. -/
theorem test_puts_ends_at_status_address :
    see (fun t => t.conOut) (step (start 0xF022 [(0, 0xFDFF)] [(0xFDFF, 0x41), (0xFE00, 0x41), (0xFE01, 0x41)])) =
    some [0x41] := by decide
theorem test_halt : see (fun t => (t.run, t.conOut, t.reg .r7)) (step (start 0xF025 [] [])) =
    some (.halted, [0x48, 0x41, 0x4C, 0x54, 0x0A], 0x3001) := by decide
theorem test_unknown_vector : see (fun t => (t.run, t.fault, t.reg .r7)) (step (start 0xF0FF [(7, 0xAAAA)] [])) =
    some (.faulted, some ⟨.illegalTrapVector 0xFF, 0x3000⟩, 0x3001) := by decide
theorem test_rti : see (fun t => (t.run, t.fault, t.reg .r7)) (step (start 0x8FFF [(7, 0x1234)] [])) =
    some (.faulted, some ⟨.illegalOpcode 0x8FFF, 0x3000⟩, 0x1234) := by decide
theorem test_res : see (fun t => (t.fault, t.pc)) (step (start 0xDABC [] [])) =
    some (some ⟨.illegalOpcode 0xDABC, 0x3000⟩, 0x3001) := by decide

/-- The image file of program P1, 95_test_vectors.md section 3. -/
theorem test_image_of_p1 :
    Image.ofBytes [0x30, 0x00, 0xE0, 0x02, 0xF0, 0x22, 0xF0, 0x25, 0x00, 0x48, 0x00, 0x49, 0x00, 0x00] =
    some ⟨0x3000, [0xE002, 0xF022, 0xF025, 0x0048, 0x0049, 0x0000]⟩ := by decide

/-! ## Witnesses: a concrete state and operands that meet every hypothesis of the statement named -/

theorem witness_DecodeInvertsEncode : (Instr.trap 0x1F).wellFormed = true ∧ (Instr.trap 0x26).wellFormed = true ∧
    (Instr.add .r7 .r0 .r7).wellFormed = true := by decide
theorem witness_IgnoredBitsDoNotMatter :
    ((0x1042 : Word) ^^^ 0x105A) &&& ~~~ (ignoredBits 0x1042) = 0 ∧
    ((0x4080 : Word) ^^^ 0x46BF) &&& ~~~ (ignoredBits 0x4080) = 0 ∧
    ((0x907F : Word) ^^^ 0x9040) &&& ~~~ (ignoredBits 0x907F) = 0 ∧
    ((0xC080 : Word) ^^^ 0xCEBF) &&& ~~~ (ignoredBits 0xC080) = 0 ∧
    ((0xF025 : Word) ^^^ 0xFF25) &&& ~~~ (ignoredBits 0xF025) = 0 := by decide
theorem witness_IllegalOpcodeWordsRaise :
    field 12 4 0x7FFF ≠ 0b1000 ∧ field 12 4 0x8000 = 0b1000 ∧ field 12 4 0x8FFF = 0b1000 ∧ field 12 4 0x9000 ≠ 0b1000 ∧
    field 12 4 0xCFFF ≠ 0b1101 ∧ field 12 4 0xD000 = 0b1101 ∧ field 12 4 0xDFFF = 0b1101 ∧
    field 12 4 0xE000 ≠ 0b1101 := by decide
/-- The words at both ends of the routines' range and the two beside it. -/
theorem witness_TrapVectorsNameSixRoutines :
    (field 12 4 0xF020 = 0b1111 ∧ 0x20 ≤ (field 0 8 0xF020).toNat ∧ (field 0 8 0xF020).toNat ≤ 0x25) ∧
    (field 12 4 0xFF25 = 0b1111 ∧ 0x20 ≤ (field 0 8 0xFF25).toNat ∧ (field 0 8 0xFF25).toNat ≤ 0x25) ∧
    (field 12 4 0xF01F = 0b1111 ∧ ¬ (0x20 ≤ (field 0 8 0xF01F).toNat ∧ (field 0 8 0xF01F).toNat ≤ 0x25)) ∧
    (field 12 4 0xF026 = 0b1111 ∧ ¬ (0x20 ≤ (field 0 8 0xF026).toNat ∧ (field 0 8 0xF026).toNat ≤ 0x25)) := by decide

/-- An image of two words at the top of memory: the first is placed, the second would be past the end. -/
def topImage : Image := ⟨0xFFFF, [0x1234, 0x5678]⟩

theorem witness_ImageWordsArePlacedInSequence :
    (topImage.origin.toNat ≤ (0xFFFF : Word).toNat ∧
      (0xFFFF : Word).toNat < topImage.origin.toNat + topImage.words.length) ∧
    ¬ (topImage.origin.toNat ≤ (0x0000 : Word).toNat ∧
      (0x0000 : Word).toNat < topImage.origin.toNat + topImage.words.length) := by decide
theorem witness_LaterImagesOverwriteEarlier :
    ∀ img ∈ [topImage, ⟨0x3000, [0xF025]⟩],
      ¬ (img.origin.toNat ≤ (0x3001 : Word).toNat ∧ (0x3001 : Word).toNat < img.origin.toNat + img.words.length) := by
  decide
theorem witness_ImageFileIsBigEndian : Image.ofBytes [0xFF, 0xFF, 0x12, 0x34] = some ⟨0xFFFF, [0x1234]⟩ ∧
    Image.ofBytes [0x30, 0x00] = some ⟨0x3000, []⟩ := by decide

/-- A machine right after reset with one key waiting. -/
def keyed : State := State.reset.typeKeys [0x41]

theorem witness_MemReadPollsOnlyAtStatusAddress :
    (0xFDFF : Word) ≠ Config.mrKbsr ∧ (0xFE00 : Word) = Config.mrKbsr ∧ (0xFE01 : Word) ≠ Config.mrKbsr := by decide
theorem witness_PollTakesWaitingKey : keyed.kbdIn = 0x41 :: [] := by decide
theorem witness_PollWithoutKeyClearsStatus : State.reset.kbdIn = [] := by decide
theorem witness_StoresToKeyboardCellsArePlain : State.reset.kbdIn = [] ∧ keyed.kbdIn ≠ [] := by decide
theorem witness_CanonicalMemoriesThatReadAlikeAreEqual :
    (Memory.write [] 0x3000 0x1234).wf ∧ ∀ a : Word, (Memory.write [] 0x3000 0x1234).read a = (Memory.write [] 0x3000 0x1234).read a :=
  ⟨by decide, fun _ => rfl⟩
theorem witness_StepRunsTheDecodedInstruction :
    State.reset.run = .running ∧ State.reset.hold = none ∧ State.reset.pc ≠ Config.mrKbsr := by decide
theorem witness_EndedRunReportsItsOutcome :
    { State.reset with run := .halted }.run = .halted ∧ { State.reset with run := .faulted }.run = .faulted := by decide
theorem witness_StoreIsSeenByNextFetch :
    State.reset.run = .running ∧ State.reset.hold = none ∧ State.reset.pc ≠ Config.mrKbsr := by decide

/-- A machine about to fetch from the keyboard-status address, with a key waiting. -/
def atStatus : State := keyed.setPc 0xFE00

theorem witness_FetchAtStatusAddressPolls :
    (let s := State.reset.setPc 0xFE00
     s.run = .running ∧ s.hold = none ∧ s.pc = Config.mrKbsr ∧ s.kbdIn = []) ∧
    atStatus.run = .running ∧ atStatus.hold = none ∧ atStatus.pc = Config.mrKbsr ∧ atStatus.kbdIn = 0x41 :: [] ∧
    atStatus.kbdIn ≠ [] ∧ atStatus.mem.read Config.mrKbsr &&& 0x7FFF = 0x0000 := by decide

/-! One word of each opcode, for the decoding clause of the instruction statements; a mode bit of each value. -/

theorem witness_AddWritesSumAndFlags : field 12 4 0x1042 = 0b0001 ∧ field 12 4 0x107F = 0b0001 := by decide
theorem witness_AndWritesBitwiseAndFlags : field 12 4 0x5042 = 0b0101 ∧ field 12 4 0x5020 = 0b0101 := by decide
theorem witness_NotWritesComplementAndFlags : field 12 4 0x907F = 0b1001 := by decide
/-- After reset cond is ZERO: a field with its z bit meets it, one with n and p does not. -/
theorem witness_BranchFollowsConditionField : field 12 4 0x0405 = 0b0000 ∧
    ((0b010#3).getLsbD 1 = true ∧ State.reset.cond = .zero) ∧
    ¬ ((0b101#3).getLsbD 2 = true ∧ State.reset.cond = .negative ∨ (0b101#3).getLsbD 1 = true ∧ State.reset.cond = .zero ∨
      (0b101#3).getLsbD 0 = true ∧ State.reset.cond = .positive) := by decide
theorem witness_BranchZeroMaskNeverAllOnesAlways :
    (0x0000 : Word).toNat ≤ 0x01FF ∧ (0x01FF : Word).toNat ≤ 0x01FF ∧ ¬ (0x0200 : Word).toNat ≤ 0x01FF := by decide
theorem witness_JumpTakesBaseRegister : field 12 4 0xC080 = 0b1100 := by decide
theorem witness_JsrLinksAndJumpsRelative : field 12 4 0x4804 = 0b0100 ∧ (0x4804 : Word).getLsbD 11 = true := by decide
theorem witness_JsrrLinksThenReadsBase : field 12 4 0x4080 = 0b0100 ∧ (0x4080 : Word).getLsbD 11 = false ∧
    Reg.r2 ≠ .r7 ∧ Reg.r7 = .r7 := by decide
/-- At reset a PC-relative access does not reach the status address; with pc 0xFE00 an offset of 0 does. -/
theorem witness_LdLoadsPcRelative : field 12 4 0x2206 = 0b0010 ∧ State.reset.pc + sext (6 : BitVec 9) ≠ Config.mrKbsr ∧
    (State.reset.setPc 0xFE00).pc + sext (0 : BitVec 9) = Config.mrKbsr := by decide
theorem witness_LdiLoadsThroughPointer : field 12 4 0xA001 = 0b1010 ∧
    State.reset.pc + sext (1 : BitVec 9) ≠ Config.mrKbsr ∧
    State.reset.mem.read (State.reset.pc + sext (1 : BitVec 9)) ≠ Config.mrKbsr := by decide
theorem witness_LdrLoadsBasePlusOffset : field 12 4 0x6380 = 0b0110 ∧
    State.reset.reg .r6 + sext (0 : BitVec 6) ≠ Config.mrKbsr := by decide
theorem witness_LeaWritesAddressAndFlags : field 12 4 0xE002 = 0b1110 := by decide
theorem witness_StStoresPcRelative : field 12 4 0x3003 = 0b0011 := by decide
theorem witness_StiStoresThroughPointer : field 12 4 0xB207 = 0b1011 ∧
    State.reset.pc + sext (7 : BitVec 9) ≠ Config.mrKbsr := by decide
theorem witness_StrStoresBasePlusOffset : field 12 4 0x7381 = 0b0111 := by decide
theorem witness_TrapDispatchesByVector : field 12 4 0xF020 = 0b1111 ∧ field 12 4 0xFFFF = 0b1111 ∧
    namesRoutine 0x1F = false ∧ namesRoutine 0x26 = false := by decide
/-- A vector at each end of every clause's range: GETC and IN read, OUT and HALT do not, 0x1F and 0x26 name no routine. -/
theorem witness_TrapsSaveLinkAndKeepTheRest :
    (trapVector .getc = some 0x20 ∧ (0x20 : Byte) ≠ 0x22 ∧ (0x20 : Byte) ≠ 0x24 ∧ namesRoutine 0x20 = true) ∧
    (trapVector .out = some 0x21 ∧ (0x21 : Byte) ≠ 0x20 ∧ (0x21 : Byte) ≠ 0x23 ∧ namesRoutine 0x21 = true ∧
      (0x21 : Byte) ≠ 0x25) ∧
    (trapVector .halt = some 0x25 ∧ namesRoutine 0x25 = true) ∧
    (trapVector (.trap 0x1F) = some 0x1F ∧ namesRoutine 0x1F = false) ∧
    (trapVector (.trap 0x26) = some 0x26 ∧ namesRoutine 0x26 = false) := by decide
theorem witness_GetcReadsOneCharacter : keyed.kbdIn = 0x41 :: [] := by decide
theorem witness_InPromptsReadsAndEchoes : keyed.kbdIn = 0x41 :: [] := by decide

/-- The words of a string at 0x4000, its address in R0. -/
def atString (ws : List Word) : State := (State.boot State.reset.gprs [⟨0x4000, ws⟩] []).setReg .r0 0x4000

/-- The hypotheses the statements on PUTS and PUTSP share. -/
def IsString (s : State) (ws : List Word) : Prop :=
  (∀ w ∈ ws, w ≠ 0x0000) ∧ (∀ k < ws.length, s.mem.read (s.reg .r0 + BitVec.ofNat 16 k) = ws.getD k 0) ∧
  s.mem.read (s.reg .r0 + BitVec.ofNat 16 ws.length) = 0x0000 ∧
  ∀ k ≤ ws.length, s.reg .r0 + BitVec.ofNat 16 k ≠ Config.mrKbsr

theorem witness_PutsWritesWordString : IsString (atString [0x0048, 0x0149]) [0x0048, 0x0149] ∧ IsString (atString []) [] :=
  ⟨⟨by simp, by decide, by decide, by decide⟩, by simp, by decide, by decide, by decide⟩
theorem witness_PutspWritesPackedString : IsString (atString [0x6548, 0x4100]) [0x6548, 0x4100] ∧ IsString (atString []) [] :=
  ⟨⟨by simp, by decide, by decide, by decide⟩, by simp, by decide, by decide, by decide⟩
theorem witness_PutsLoopReadsWordByWord : ((atString []).memRead ((atString []).reg .r0)).1 = 0x0000 ∧
    ((atString [0x0048]).memRead ((atString [0x0048]).reg .r0)).1 ≠ 0x0000 := by decide
theorem witness_PutspLoopReadsWordByWord : ((atString []).memRead ((atString []).reg .r0)).1 = 0x0000 ∧
    ((atString [0x4100]).memRead ((atString [0x4100]).reg .r0)).1 ≠ 0x0000 := by decide
theorem witness_UnknownVectorRaises : ((0x1F : Byte).toNat < 0x20 ∨ 0x25 < (0x1F : Byte).toNat) ∧
    ((0x26 : Byte).toNat < 0x20 ∨ 0x25 < (0x26 : Byte).toNat) := by decide
theorem witness_ReservedOpcodesRaise : field 12 4 0x8FFF = 0b1000 ∧ field 12 4 0xDABC = 0b1101 := by decide
theorem witness_ConsoleReadHoldsWithoutInput : State.reset.kbdIn = [] ∧
    (let s := { State.reset with hold := some .getc }
     s.run = .running ∧ s.hold = some .getc ∧ s.kbdIn = []) := by decide
theorem witness_TypedKeyCompletesTheHeldRead : ∀ i ∈ [Instr.getc, .input], (i = .getc ∨ i = .input) ∧
    State.reset.run = .running ∧ State.reset.hold = none ∧ State.reset.kbdIn = [] ∧
    (see id (exec i State.reset)).isSome = true := by decide
theorem witness_CondChangesOnlyAtItsWriters :
    ((Instr.st .r0 0).wellFormed = true ∧ condDest (.st .r0 0) = none ∧ (see id (exec (.st .r0 0) State.reset)).isSome = true) ∧
    ((Instr.add .r0 .r1 .r2).wellFormed = true ∧ condDest (.add .r0 .r1 .r2) = some .r0 ∧ State.reset.hold = none ∧
      see State.hold (exec (.add .r0 .r1 .r2) State.reset) = some none) ∧
    (Instr.getc.wellFormed = true ∧ see State.hold (exec .getc State.reset) = some (some .getc)) := by decide
theorem witness_PcIsWrittenOnlyByControlTransfer :
    WritesPc .halt = false ∧ (see id (exec .halt State.reset)).isSome = true := by decide
/-- A running machine one step from HALTED, and from FAULTED in each of the ways. -/
theorem witness_RunEndsOnlyByHaltOrFault :
    (start 0xF025 [] []).run = .running ∧ see State.run (step (start 0xF025 [] [])) = some .halted ∧
    (start 0x8000 [] []).run = .running ∧ see State.run (step (start 0x8000 [] [])) = some .faulted ∧
    (start 0xDFFF [] []).run = .running ∧ see State.run (step (start 0xDFFF [] [])) = some .faulted ∧
    (start 0xF01F [] []).run = .running ∧ see State.run (step (start 0xF01F [] [])) = some .faulted ∧
    (start 0xF026 [] []).run = .running ∧ see State.run (step (start 0xF026 [] [])) = some .faulted := by decide
theorem witness_ConsoleSequencesOnlyMoveForward : (see id (exec .input keyed)).isSome = true := by decide
theorem witness_StepKeepsWellFormedStates : keyed.wf ∧ (see id (step keyed)).isSome = true := by decide

end Sys2Proof.Tests
end

/-! # The state: memories in canonical form, SetCC, and what one step can do (10_state.md) -/

namespace Sys2Proof.Machine

/-! ## Memories in canonical form are determined by what they read -/

/-- In a canonical memory the entry of a byte number is the only one, so it is the one a lookup finds. -/
theorem Memory.getByte_of_mem {m : Memory} (hm : m.wf) {c : Host.Cell} (hc : c ∈ m) : m.getByte c.1 = c.2 := by
  obtain ⟨rising, -⟩ := hm
  induction m with
  | nil => cases hc
  | cons d rest ih =>
    obtain ⟨hfirst, hrest⟩ := List.pairwise_cons.mp rising
    rcases List.mem_cons.mp hc with rfl | hc
    · simp [Memory.getByte]
    · rw [Memory.getByte, if_neg (Nat.ne_of_lt (hfirst c hc))]
      exact ih hc hrest

/-- A byte that does not read as unlisted has an entry. -/
theorem Memory.mem_of_getByte_ne {m : Memory} {k : Nat} (h : m.getByte k ≠ Config.unlistedByte) :
    (k, m.getByte k) ∈ m := by
  induction m with
  | nil => exact absurd rfl h
  | cons d rest ih =>
    obtain ⟨j, u⟩ := d
    by_cases hj : j = k
    · simp [Memory.getByte, hj]
    · simp only [Memory.getByte, if_neg hj] at h ⊢
      exact List.mem_cons_of_mem _ (ih h)

/-- The entries of a canonical memory are its bytes that do not read as unlisted. -/
theorem Memory.mem_iff_getByte {m : Memory} (hm : m.wf) (c : Host.Cell) :
    c ∈ m ↔ m.getByte c.1 = c.2 ∧ c.2 ≠ Config.unlistedByte := by
  refine ⟨fun hc => ⟨Memory.getByte_of_mem hm hc, (hm.2 c hc).2⟩, fun ⟨value, listed⟩ => ?_⟩
  have := Memory.mem_of_getByte_ne (value.trans_ne listed)
  rwa [value] at this

theorem Memory.ext_getByte {m n : Memory} (hm : m.wf) (hn : n.wf) (h : ∀ k, m.getByte k = n.getByte k) : m = n := by
  have : Std.Irrefl fun c d : Host.Cell => c.1 < d.1 := ⟨fun c => Nat.lt_irrefl c.1⟩
  have : Std.Antisymm fun c d : Host.Cell => c.1 < d.1 := ⟨fun c d hcd hdc => absurd hcd (Nat.lt_asymm hdc)⟩
  refine List.Pairwise.eq_of_mem_iff hm.1 hn.1 fun c => ?_
  rw [Memory.mem_iff_getByte hm, Memory.mem_iff_getByte hn, h]

/-- No canonical memory lists a byte beyond the last cell (20_memory.md rule R41). -/
theorem Memory.getByte_of_byteCount_le {m : Memory} (hm : m.wf) {k : Nat} (hk : Memory.byteCount ≤ k) :
    m.getByte k = Config.unlistedByte :=
  Memory.getByte_of_not_mem m k fun c hc => Nat.ne_of_lt (Nat.lt_of_lt_of_le (hm.2 c hc).1 hk)

theorem Memory.getByte_hiKey (m : Memory) (a : Word) : m.getByte (Memory.hiKey a) = (m.read a).extractLsb' 8 8 :=
  BitVec.extractLsb'_append_eq_left.symm

theorem Memory.getByte_loKey (m : Memory) (a : Word) : m.getByte (Memory.loKey a) = (m.read a).extractLsb' 0 8 :=
  BitVec.extractLsb'_append_eq_right.symm

/-- Every byte number below the count is one of the two of some cell. -/
theorem Memory.exists_cell_of_lt_byteCount {k : Nat} (hk : k < Memory.byteCount) :
    ∃ a : Word, k = Memory.hiKey a ∨ k = Memory.loKey a := by
  refine ⟨BitVec.ofNat 16 (k / 2), ?_⟩
  simp only [Memory.hiKey, Memory.loKey, Memory.byteCount, BitVec.toNat_ofNat] at *
  omega

theorem Memory.getByte_eq_of_read_eq {m n : Memory} (hm : m.wf) (hn : n.wf) (h : ∀ a : Word, m.read a = n.read a)
    (k : Nat) : m.getByte k = n.getByte k := by
  by_cases hk : k < Memory.byteCount
  · obtain ⟨a, rfl | rfl⟩ := Memory.exists_cell_of_lt_byteCount hk
    · rw [Memory.getByte_hiKey, Memory.getByte_hiKey, h]
    · rw [Memory.getByte_loKey, Memory.getByte_loKey, h]
  · have beyond := Nat.le_of_not_lt hk
    rw [Memory.getByte_of_byteCount_le hm beyond, Memory.getByte_of_byteCount_le hn beyond]

/-- Settles O18: equal reads give equal bytes, and a canonical list is its bytes in rising order. -/
theorem canonicalMemoriesThatReadAlikeAreEqual : Obligations.CanonicalMemoriesThatReadAlikeAreEqual :=
  fun _ _ hm hn h => Memory.ext_getByte hm hn (Memory.getByte_eq_of_read_eq hm hn h)

/-! ## SetCC -/

/-- Settles O25: the code SetCC writes is the sign of the register, and it writes no other field. -/
theorem setCCTakesTheSignOfTheRegister : Obligations.SetCCTakesTheSignOfTheRegister := fun s r =>
  ⟨condMatches_signCond (s.reg r), fun q _ => s.reg_setCC r q, s.setCC_pc r,
    fun a _ => congrArg (Memory.read · a) (s.setCC_mem r), ⟨s.setCC_kbdIn r, s.setCC_conOut r⟩,
    ⟨s.setCC_run r, s.setCC_fault r, s.setCC_hold r⟩⟩

/-! ## The launch state -/

/-- A launch state is well-formed when its memory is: it runs, with no fault record and no hold. -/
theorem State.launch_wf (g : Gprs) {m : Memory} (hm : m.wf) (keys : List Byte) : (State.launch g m keys).wf :=
  ⟨hm, by simp [State.launch], by simp [State.launch]⟩

/-- Settles O8: each field as `State.launch` sets it, the memory being the images'. -/
theorem resetEstablishesLaunchState : Obligations.ResetEstablishesLaunchState := fun _ _ _ =>
  ⟨rfl, rfl, rfl, rfl, rfl, rfl, rfl, rfl, rfl⟩

/-- Settles O59: the empty memory and the images' are canonical. -/
theorem launchStatesAreWellFormed : Obligations.LaunchStatesAreWellFormed :=
  ⟨State.launch_wf _ Memory.wf_nil [], fun g images keys => State.launch_wf g (Memory.wf_ofImages images) keys⟩

/-! ## What one instruction can do

`exec_effect` walks through the instructions once; the rules over all instructions, and the invariant, are then case
analyses over the kinds of `Effect`. -/

/-- The eight kinds of next state an instruction `i` answers in a state `s`, each with what `condDest` and
`WritesPc` say of the instructions of that kind. -/
inductive Effect (i : Instr) (s : State) : State → Prop where
  /-- BR, JMP, JSR, JSRR: pc is written, and at most registers beside it (rules R110 to R113). -/
  | jumps (g : Gprs) (v : Word) (hcond : condDest i = none) (hpc : WritesPc i = true) :
      Effect i s { s with gprs := g, pc := v }
  /-- The operate instructions, LEA and the loads: reads that may poll, then a register and the flags (rule R19). -/
  | writes {u : State} (polled : PollFrame s u) (dr : Reg) (v : Word) (hcond : condDest i = some dr)
      (hpc : WritesPc i = false) : Effect i s (u.writeResult dr v)
  /-- The stores: STI's read may poll, then one cell is written (rules R124 to R126). -/
  | stores {u : State} (polled : PollFrame s u) (a v : Word) (hcond : condDest i = none) (hpc : WritesPc i = false) :
      Effect i s (u.memWrite a v)
  /-- RTI, RES and the unknown vectors: the fault record and FAULTED, R7 written before by TRAP (rules R137, R153). -/
  | faults (g : Gprs) (c : Condition) (hcond : condDest i = none) (hpc : WritesPc i = false) :
      Effect i s (State.raise { s with gprs := g } c)
  /-- OUT, PUTS, PUTSP: the link, characters written, and a walk's reads may poll (rule R138). -/
  | prints (out : List Byte) {t : State} (polled : PollFrame (s.link.consoleWriteSeq out) t)
      (hcond : condDest i = none) (hpc : WritesPc i = false) : Effect i s t
  /-- HALT: the link, the notice, and HALTED (rule R136). -/
  | halts (hcond : condDest i = none) (hpc : WritesPc i = false) :
      Effect i s { s.link.consoleWriteSeq Config.haltNotice with run := .halted }
  /-- GETC and IN with a character waiting (rules R131, R134); `trap 0x20` and `trap 0x23` are ill-formed terms. -/
  | reads (prompt : List Byte) (w : ConsoleWait) (c : Byte) (rest : List Byte) (waiting : s.kbdIn = c :: rest)
      (hcond : i.wellFormed = true → condDest i = some .r0) (hpc : WritesPc i = false) :
      Effect i s ((s.link.consoleWriteSeq prompt).afterRead w c rest)
  /-- GETC and IN with none waiting: the prompt has been written, the read has not happened (rule R163). -/
  | holds (prompt : List Byte) (w : ConsoleWait) (nothing : s.kbdIn = [])
      (hcond : i.wellFormed = true → condDest i = some .r0) (hpc : WritesPc i = false) :
      Effect i s { s.link.consoleWriteSeq prompt with hold := some w }

theorem PollFrame.trans {s t u : State} (f : PollFrame s t) (g : PollFrame t u) : PollFrame s u where
  gprs := g.gprs.trans f.gprs
  pc := g.pc.trans f.pc
  cond := g.cond.trans f.cond
  run := g.run.trans f.run
  fault := g.fault.trans f.fault
  conOut := g.conOut.trans f.conOut
  hold := g.hold.trans f.hold
  kbdIn := g.kbdIn.trans f.kbdIn
  mem := fun a ha => (g.mem a ha).trans (f.mem a ha)
  wf := g.wf ∘ f.wf

/-- GETC and IN after the link and the prompt. -/
theorem Effect.of_readOrHold {i : Instr} {s t : State} {prompt : List Byte} {w : ConsoleWait}
    (h : readOrHold w (s.link.consoleWriteSeq prompt) = .next t)
    (hcond : i.wellFormed = true → condDest i = some .r0) (hpc : WritesPc i = false) : Effect i s t := by
  obtain ⟨c, rest, waiting, rfl⟩ | ⟨nothing, rfl⟩ := readOrHold_cases h
  · exact .reads prompt w c rest waiting hcond hpc
  · exact .holds prompt w nothing hcond hpc

/-- PUTS and PUTSP after the link. -/
theorem Effect.of_walkFromR0 {i : Instr} {s t : State} {chars : Word → List Byte}
    (h : walkFromR0 chars s.link = .next t) (hcond : condDest i = none) (hpc : WritesPc i = false) : Effect i s t := by
  obtain ⟨out, polled⟩ := walkFromR0_frame h
  exact .prints out polled hcond hpc

@[simp] theorem State.consoleWriteSeq_nil (s : State) : s.consoleWriteSeq [] = s := by
  simp [State.consoleWriteSeq]

theorem Effect.of_routineGetc {i : Instr} {s t : State} (h : routineGetc s.link = .next t)
    (hcond : i.wellFormed = true → condDest i = some .r0) (hpc : WritesPc i = false) : Effect i s t :=
  .of_readOrHold (prompt := []) (by simpa [routineGetc] using h) hcond hpc

theorem Effect.of_routineOut {i : Instr} {s t : State} (h : routineOut s.link = .next t) (hcond : condDest i = none)
    (hpc : WritesPc i = false) : Effect i s t := by
  cases h
  exact .prints _ (PollFrame.refl _) hcond hpc

theorem Effect.of_routineHalt {i : Instr} {s t : State} (h : routineHalt s.link = .next t)
    (hcond : condDest i = none) (hpc : WritesPc i = false) : Effect i s t := by
  cases h
  exact .halts hcond hpc

/-- The general TRAP term is well-formed with the vectors that name no routine (30_encoding.md rule R72). -/
theorem wellFormed_trap_iff (vect : Byte) :
    (Instr.trap vect).wellFormed = true ↔ ¬ (0x20 ≤ vect.toNat ∧ vect.toNat ≤ 0x25) := by
  simp only [Instr.wellFormed, namesRoutine, Bool.not_eq_true', Bool.and_eq_false_iff, decide_eq_false_iff_not]
  omega

/-- TRAP dispatches to the six routines, and every other vector faults (rules R130, R137). -/
theorem execTrap_effect {vect : Byte} {s t : State} (h : execTrap vect s = .next t) : Effect (.trap vect) s t := by
  unfold execTrap at h
  dsimp only at h
  split at h
  · next hv => exact .of_routineGetc h (fun wf => absurd (by omega) ((wellFormed_trap_iff vect).mp wf)) rfl
  · exact .of_routineOut h rfl rfl
  · exact .of_walkFromR0 h rfl rfl
  · next hv => exact .of_readOrHold h (fun wf => absurd (by omega) ((wellFormed_trap_iff vect).mp wf)) rfl
  · exact .of_walkFromR0 h rfl rfl
  · exact .of_routineHalt h rfl rfl
  · cases h; exact .faults _ _ rfl rfl

/-- Every next state of every instruction is of one of the kinds of `Effect`. -/
theorem exec_effect {i : Instr} {s t : State} (h : exec i s = .next t) : Effect i s t := by
  have still := PollFrame.refl s
  cases i with
  | br nzp off =>
    cases h
    split
    · exact .jumps s.gprs _ rfl rfl
    · exact .jumps s.gprs s.pc rfl rfl
  | jmp base => cases h; exact .jumps s.gprs _ rfl rfl
  | jsr off => cases h; exact .jumps s.link.gprs _ rfl rfl
  | jsrr base => cases h; exact .jumps s.link.gprs _ rfl rfl
  | add dr sr1 sr2 => cases h; exact .writes still dr _ rfl rfl
  | addi dr sr1 imm => cases h; exact .writes still dr _ rfl rfl
  | and dr sr1 sr2 => cases h; exact .writes still dr _ rfl rfl
  | andi dr sr1 imm => cases h; exact .writes still dr _ rfl rfl
  | not dr sr => cases h; exact .writes still dr _ rfl rfl
  | lea dr off => cases h; exact .writes still dr _ rfl rfl
  | ld dr off => cases h; exact .writes (s.memRead_frame _) dr _ rfl rfl
  | ldr dr base off => cases h; exact .writes (s.memRead_frame _) dr _ rfl rfl
  | ldi dr off => cases h; exact .writes ((s.memRead_frame _).trans (State.memRead_frame _ _)) dr _ rfl rfl
  | st sr off => cases h; exact .stores still _ _ rfl rfl
  | str sr base off => cases h; exact .stores still _ _ rfl rfl
  | sti sr off => cases h; exact .stores (s.memRead_frame _) _ _ rfl rfl
  | rti low => cases h; exact .faults s.gprs _ rfl rfl
  | res low => cases h; exact .faults s.gprs _ rfl rfl
  | getc => exact .of_routineGetc h (fun _ => rfl) rfl
  | out => exact .of_routineOut h rfl rfl
  | puts => exact .of_walkFromR0 h rfl rfl
  | input => exact .of_readOrHold h (fun _ => rfl) rfl
  | putsp => exact .of_walkFromR0 h rfl rfl
  | halt => exact .of_routineHalt h rfl rfl
  | trap vect => exact execTrap_effect h

/-! ## Rules over all instructions -/

/-- Settles O56: only the first kind of effect writes pc. -/
theorem pcIsWrittenOnlyByControlTransfer : Obligations.PcIsWrittenOnlyByControlTransfer := by
  intro i s t h notControl
  cases exec_effect h with
  | jumps g v hcond hpc => rw [hpc] at notControl; cases notControl
  | writes polled dr v hcond hpc => exact polled.pc
  | stores polled a v hcond hpc => exact polled.pc
  | faults g c hcond hpc => rfl
  | prints out polled hcond hpc => exact polled.pc
  | halts hcond hpc => rfl
  | reads prompt w c rest waiting hcond hpc => rfl
  | holds prompt w nothing hcond hpc => rfl

/-- Settles O58: con_out changes only by appending, kbd_in only by a poll or a console read. -/
theorem consoleSequencesOnlyMoveForward : Obligations.ConsoleSequencesOnlyMoveForward := by
  intro i s t h
  cases exec_effect h with
  | jumps g v hcond hpc => exact ⟨List.prefix_refl _, List.suffix_refl _⟩
  | writes polled dr v hcond hpc => exact ⟨polled.conOut ▸ List.prefix_refl _, polled.kbdIn⟩
  | stores polled a v hcond hpc => exact ⟨polled.conOut ▸ List.prefix_refl _, polled.kbdIn⟩
  | faults g c hcond hpc => exact ⟨List.prefix_refl _, List.suffix_refl _⟩
  | prints out polled hcond hpc => exact ⟨polled.conOut ▸ List.prefix_append _ out, polled.kbdIn⟩
  | halts hcond hpc => exact ⟨List.prefix_append _ _, List.suffix_refl _⟩
  | reads prompt w c rest waiting hcond hpc =>
    exact ⟨(List.prefix_append s.conOut prompt).trans (List.prefix_append _ _), waiting ▸ List.suffix_cons c rest⟩
  | holds prompt w nothing hcond hpc => exact ⟨List.prefix_append _ _, List.suffix_refl _⟩

/-- What O55 asks of a next state `t` of `i` in `s` (rules R19, R20, R163). -/
def CondRule (i : Instr) (s t : State) : Prop :=
  (condDest i = none → t.cond = s.cond) ∧
  (∀ r, condDest i = some r → s.hold = none → t.hold = none → CondMatches t.cond (t.reg r)) ∧
  (t.hold ≠ s.hold → t.cond = s.cond)

/-- An instruction that does not write cond. -/
theorem condRule_of_notWriter {i : Instr} {s t : State} (hcond : condDest i = none) (cond : t.cond = s.cond) :
    CondRule i s t :=
  ⟨fun _ => cond, fun r hr => by simp [hcond] at hr, fun _ => cond⟩

/-- A completed writer of cond. -/
theorem condRule_of_writer {i : Instr} {s t : State} {dr : Reg} (hcond : condDest i = some dr)
    (cond : t.cond = signCond (t.reg dr)) (hold : t.hold = s.hold) : CondRule i s t := by
  refine ⟨fun hn => by simp [hcond] at hn, fun r hr _ _ => ?_, fun hne => absurd hold hne⟩
  obtain rfl : dr = r := Option.some.inj (hcond.symm.trans hr)
  rw [cond]
  exact condMatches_signCond _

/-- Settles O55: the writers' effects end in `SetCC`, a hold begins before it, and the other effects keep cond. -/
theorem condChangesOnlyAtItsWriters : Obligations.CondChangesOnlyAtItsWriters := by
  intro i s t hwf h
  show CondRule i s t
  cases exec_effect h with
  | jumps g v hcond hpc => exact condRule_of_notWriter hcond rfl
  | writes polled dr v hcond hpc => exact condRule_of_writer hcond (by simp) polled.hold
  | stores polled a v hcond hpc => exact condRule_of_notWriter hcond polled.cond
  | faults g c hcond hpc => exact condRule_of_notWriter hcond rfl
  | prints out polled hcond hpc => exact condRule_of_notWriter hcond polled.cond
  | halts hcond hpc => exact condRule_of_notWriter hcond rfl
  | reads prompt w c rest waiting hcond hpc => exact condRule_of_writer (hcond hwf) rfl rfl
  | holds prompt w nothing hcond hpc => exact ⟨fun _ => rfl, fun r _ _ held => by simp at held, fun _ => rfl⟩

/-! ## The invariant -/

theorem PollFrame.state_wf {s t : State} (f : PollFrame s t) (h : s.wf) : t.wf := by
  obtain ⟨mem, fault, hold⟩ := h
  exact ⟨f.wf mem, by rw [f.fault, f.run]; exact fault, by rw [f.hold, f.run]; exact hold⟩

/-- The fetch keeps the invariant, polling or not. -/
theorem State.fetch_wf {s : State} (h : s.wf) : s.fetch.2.wf := by
  rw [State.fetch_eq]
  exact (s.memRead_frame s.pc).state_wf h

/-- Every instruction keeps the invariant in a running machine that does not hold. -/
theorem exec_keeps_wf {i : Instr} {s t : State} (h : s.wf) (running : s.run = .running) (free : s.hold = none)
    (next : exec i s = .next t) : t.wf := by
  have ⟨mem, record, _⟩ := h
  have noRecord : s.fault.isSome ≠ true := fun recorded => by simpa [running] using record.mp recorded
  cases exec_effect next with
  | jumps g v hcond hpc => exact h
  | writes polled dr v hcond hpc => exact polled.state_wf h
  | stores polled a v hcond hpc =>
    obtain ⟨umem, urecord, uhold⟩ := polled.state_wf h
    exact ⟨State.memWrite_wf a v umem, urecord, uhold⟩
  | faults g c hcond hpc => exact ⟨mem, by simp, by simp [free]⟩
  | prints out polled hcond hpc => exact polled.state_wf h
  | halts hcond hpc => exact ⟨mem, by simpa using noRecord, by simp [free]⟩
  | reads prompt w c rest waiting hcond hpc => exact h
  | holds prompt w nothing hcond hpc => exact ⟨mem, record, fun _ => running⟩

/-- A held read keeps the invariant: completing it only lifts the hold. -/
theorem resumeHold_keeps_wf {w : ConsoleWait} {s t : State} (h : s.wf) (next : resumeHold w s = .next t) : t.wf := by
  obtain ⟨c, rest, -, rfl⟩ | ⟨-, rfl⟩ := resumeHold_cases next
  · obtain ⟨mem, record, -⟩ := h
    exact ⟨mem, record, by simp⟩
  · exact h

/-- A step answers a next state only when RUNNING: then it goes on with a held read, or it fetches and executes
(40_cycle.md rules R90, R91; 60_exceptions.md rule R163). -/
theorem step_cases {s t : State} (h : step s = .next t) :
    s.run = .running ∧ ((∃ w, s.hold = some w ∧ resumeHold w s = .next t) ∨
      s.hold = none ∧ exec (decode s.fetch.1) s.fetch.2 = .next t) := by
  unfold step at h
  split at h
  · cases h
  · cases h
  · next running =>
    refine ⟨running, ?_⟩
    split at h
    · next w held => exact .inl ⟨w, held, h⟩
    · next free => exact .inr ⟨free, h⟩

/-- Settles O60: a held read and an executed instruction both keep the invariant. -/
theorem stepKeepsWellFormedStates : Obligations.StepKeepsWellFormedStates := by
  intro s t h next
  obtain ⟨running, ⟨w, -, resumed⟩ | ⟨free, executed⟩⟩ := step_cases next
  · exact resumeHold_keeps_wf h resumed
  · exact exec_keeps_wf (State.fetch_wf h) (by simpa [State.fetch_eq]) (by simpa [State.fetch_eq]) executed

end Sys2Proof.Machine

/-! # Memory and the keyboard cells (20_memory.md) -/

namespace Sys2Proof.Machine

/-! ## Facts about words -/

theorem toNat_zext16 (c : Byte) : (zext16 c).toNat = c.toNat :=
  BitVec.toNat_setWidth_of_le (by decide)

/-- Setting bit 15 of a word keeps its bits 14:0. -/
theorem getLsbD_setBit15 (w : Word) {i : Nat} (hi : i < 15) : (w ||| 0x8000).getLsbD i = w.getLsbD i := by
  interval_cases i <;> simp

theorem getLsbD_15_setBit15 (w : Word) : (w ||| 0x8000).getLsbD 15 = true := by simp

/-- A word with bit 15 set depends on its bits 14:0 alone. -/
theorem setBit15_eq_of_low_zero {w : Word} (low : w &&& 0x7FFF = 0x0000) : w ||| 0x8000 = 0x8000 := by
  have split : w ||| 0x8000 = (w &&& 0x7FFF) ||| 0x8000 := by
    ext i hi
    interval_cases i <;> simp
  rw [split, low]
  rfl

/-! ## The two keyboard cells after a poll -/

/-- The two keyboard addresses are different (20_memory.md rule R45). -/
theorem mrKbsr_ne_mrKbdr : Config.mrKbsr ≠ Config.mrKbdr := by decide

theorem State.kbdPoll_status_noKey {s : State} (h : s.kbdIn = []) : s.kbdPoll.mem.read Config.mrKbsr = 0x0000 := by
  rw [State.kbdPoll_nil h, State.memWrite_read_same]

theorem State.kbdPoll_status_key {s : State} (h : s.kbdIn ≠ []) :
    s.kbdPoll.mem.read Config.mrKbsr = s.mem.read Config.mrKbsr ||| 0x8000 := by
  obtain ⟨c, rest, waiting⟩ := List.exists_cons_of_ne_nil h
  rw [State.kbdPoll_cons waiting, State.memWrite_read_other _ _ mrKbsr_ne_mrKbdr, State.memWrite_read_same]

theorem State.kbdPoll_data_key {s : State} {c : Byte} {rest : List Byte} (h : s.kbdIn = c :: rest) :
    s.kbdPoll.mem.read Config.mrKbdr = zext16 c := by
  rw [State.kbdPoll_cons h, State.memWrite_read_same]

theorem State.kbdPoll_kbdIn_key {s : State} {c : Byte} {rest : List Byte} (h : s.kbdIn = c :: rest) :
    s.kbdPoll.kbdIn = rest := by
  rw [State.kbdPoll_cons h, State.memWrite_kbdIn, State.memWrite_kbdIn]

theorem PollFrame.sameRegs {s t : State} (f : PollFrame s t) : SameRegsBut [] s t := fun r _ => f.reg r

theorem PollFrame.sameControl {s t : State} (f : PollFrame s t) : SameControl s t := ⟨f.run, f.fault, f.hold⟩

/-! ## MemWrite, MemRead and the poll -/

/-- Settles O13: the read-after-write law at the cell and its frame; no other field is written. -/
theorem memWriteStoresOneCell : Obligations.MemWriteStoresOneCell := fun s a v =>
  ⟨s.memWrite_read_same a v, s.memWrite_sameMemBut a v, fun r _ => s.reg_memWrite a v r, s.memWrite_pc a v,
    s.memWrite_cond a v, ⟨s.memWrite_kbdIn a v, s.memWrite_conOut a v⟩,
    ⟨s.memWrite_run a v, s.memWrite_fault a v, s.memWrite_hold a v⟩⟩

/-- Settles O14: MemRead polls in the one case of its address test. -/
theorem memReadPollsOnlyAtStatusAddress : Obligations.MemReadPollsOnlyAtStatusAddress := fun s _ =>
  ⟨State.memRead_of_ne, fun status => status ▸ s.memRead_kbsr⟩

/-- Settles O15: the two keyboard cells after the poll, and the poll's frame. -/
theorem pollTakesWaitingKey : Obligations.PollTakesWaitingKey := by
  intro s c rest waiting
  have polled := s.kbdPoll_frame
  have status : s.kbdPoll.mem.read Config.mrKbsr = s.mem.read Config.mrKbsr ||| 0x8000 :=
    State.kbdPoll_status_key (by simp [waiting])
  refine ⟨?_, fun i hi => ?_, ?_, State.kbdPoll_kbdIn_key waiting, polled.mem, polled.sameRegs, polled.pc, polled.cond,
    polled.conOut, polled.sameControl⟩
  · rw [status, getLsbD_15_setBit15]
  · rw [status, getLsbD_setBit15 _ hi]
  · rw [State.kbdPoll_data_key waiting, toNat_zext16]

/-- Settles O16: the poll is then one store, of 0x0000 to the status cell. -/
theorem pollWithoutKeyClearsStatus : Obligations.PollWithoutKeyClearsStatus := by
  intro s nothing
  rw [State.kbdPoll_nil nothing]
  exact memWriteStoresOneCell s Config.mrKbsr 0x0000

/-- Settles O17: a read of the data cell does not poll; one of the status cell polls over the stored value. -/
theorem storesToKeyboardCellsArePlain : Obligations.StoresToKeyboardCellsArePlain := by
  refine fun s v => ⟨?_, fun nothing => ?_, fun waiting => ?_⟩
  · rw [State.memRead_of_ne mrKbsr_ne_mrKbdr.symm, State.memWrite_read_same]
  · rw [State.memRead_kbsr]
    exact State.kbdPoll_status_noKey nothing
  · rw [State.memRead_kbsr]
    have status := State.kbdPoll_status_key (s := s.memWrite Config.mrKbsr v) waiting
    rwa [State.memWrite_read_same] at status

/-! ## A fetch from the status address -/

/-- A running machine that does not hold fetches and executes (40_cycle.md rule R91). -/
theorem step_of_running {s : State} (running : s.run = .running) (free : s.hold = none) :
    step s = exec (decode s.fetch.1) s.fetch.2 := by
  simp only [step, running, free]

/-- A fetch from the status address polls, and its word is the status cell after the poll (20_memory.md rule R50). -/
theorem State.fetch_kbsr {s : State} (h : s.pc = Config.mrKbsr) :
    s.fetch = (s.kbdPoll.mem.read Config.mrKbsr, s.kbdPoll.setPc (Config.mrKbsr + 1)) := by
  rw [State.fetch_eq, h, State.memRead_kbsr]

/-- `ia` is the address the fetch incremented (10_state.md rule R15). -/
theorem State.ia_setPc_succ (s : State) (a : Word) : (s.setPc (a + 1)).ia = a := by
  rw [State.ia, State.setPc_pc, BitVec.add_sub_cancel]

/-- BR with an empty condition field is never taken (30_encoding.md rule R73). -/
theorem exec_br_emptyField (off : BitVec 9) (s : State) : exec (.br 0 off) s = .next s := by
  simp [exec, execBr, branchTaken]

theorem decode_zeroWord : decode 0x0000 = .br 0 0 := rfl

/-- 0x8000 is an illegal opcode, recorded whole (45_reserved.md rule R140, 60_exceptions.md rule R151). -/
theorem exec_decode_bit15Word (s : State) : exec (decode 0x8000) s = .next (s.raise (.illegalOpcode 0x8000)) := rfl

/-- A step from the status address polls once, then executes the status cell. -/
theorem step_at_kbsr {s : State} (running : s.run = .running) (free : s.hold = none) (status : s.pc = Config.mrKbsr) :
    step s = exec (decode (s.kbdPoll.mem.read Config.mrKbsr)) (s.kbdPoll.setPc (Config.mrKbsr + 1)) := by
  rw [step_of_running running free, State.fetch_kbsr status]

/-- With no key the step only clears the status cell and advances pc. -/
theorem step_at_kbsr_noKey {s : State} (running : s.run = .running) (free : s.hold = none)
    (status : s.pc = Config.mrKbsr) (nothing : s.kbdIn = []) :
    step s = .next ((s.memWrite Config.mrKbsr 0x0000).setPc (Config.mrKbsr + 1)) := by
  rw [step_at_kbsr running free status, State.kbdPoll_status_noKey nothing, decode_zeroWord, exec_br_emptyField,
    State.kbdPoll_nil nothing]

/-- With a key the step executes the status cell with bit 15 set. -/
theorem step_at_kbsr_key {s : State} (running : s.run = .running) (free : s.hold = none)
    (status : s.pc = Config.mrKbsr) (waiting : s.kbdIn ≠ []) :
    step s = exec (decode (s.mem.read Config.mrKbsr ||| 0x8000)) (s.kbdPoll.setPc (Config.mrKbsr + 1)) := by
  rw [step_at_kbsr running free status, State.kbdPoll_status_key waiting]

/-- With a key and no other bit in the status cell the step ends in the IllegalOpcode fault. -/
theorem step_at_kbsr_key_faults {s : State} (running : s.run = .running) (free : s.hold = none)
    (status : s.pc = Config.mrKbsr) (waiting : s.kbdIn ≠ []) (low : s.mem.read Config.mrKbsr &&& 0x7FFF = 0x0000) :
    step s = .next ((s.kbdPoll.setPc (Config.mrKbsr + 1)).raise (.illegalOpcode 0x8000)) := by
  rw [step_at_kbsr_key running free status waiting, setBit15_eq_of_low_zero low, exec_decode_bit15Word]

/-- Settles O24: the three forms of the step, with the frames of the store, of the poll and of the fault. -/
theorem fetchAtStatusAddressPolls : Obligations.FetchAtStatusAddressPolls := by
  refine fun s running free status => ⟨fun nothing => ?_, fun waiting => ?_, fun c rest oldest low => ?_⟩
  · obtain ⟨cleared, mem, regs, -, cond, console, control⟩ := memWriteStoresOneCell s Config.mrKbsr 0x0000
    exact ⟨_, step_at_kbsr_noKey running free status nothing, rfl, cleared, mem, regs, cond, console, control⟩
  · exact step_at_kbsr_key running free status waiting
  · have waiting : s.kbdIn ≠ [] := by simp [oldest]
    have polled := s.kbdPoll_frame
    have cell : s.kbdPoll.mem.read Config.mrKbsr = 0x8000 :=
      (State.kbdPoll_status_key waiting).trans (setBit15_eq_of_low_zero low)
    have data : (s.kbdPoll.mem.read Config.mrKbdr).toNat = c.toNat := by
      rw [State.kbdPoll_data_key oldest, toNat_zext16]
    exact ⟨_, step_at_kbsr_key_faults running free status waiting low, rfl, rfl,
      by rw [State.raise_fault, State.ia_setPc_succ], cell, data, State.kbdPoll_kbdIn_key oldest, polled.mem,
      polled.sameRegs, polled.cond, polled.conOut, polled.hold⟩

end Sys2Proof.Machine

/-! # The decoder and the encoder (30_encoding.md) -/

namespace Sys2Proof

/-! ## Fields of an assembled word -/

@[simp] theorem field_or (lo n : Nat) (w v : Word) : field lo n (w ||| v) = field lo n w ||| field lo n v :=
  BitVec.extractLsb'_or

theorem toNat_field (lo n : Nat) (w : Word) : (field lo n w).toNat = w.toNat / 2 ^ lo % 2 ^ n := by
  simp [field, BitVec.extractLsb'_toNat, Nat.shiftRight_eq_div_pow]

theorem getLsbD_field (lo n : Nat) (w : Word) (i : Nat) :
    (field lo n w).getLsbD i = (decide (i < n) && w.getLsbD (lo + i)) :=
  BitVec.getLsbD_extractLsb' ..

/-- The bits of a word that a placed value takes. -/
theorem getLsbD_place {m : Nat} (lo : Nat) (v : BitVec m) (i : Nat) :
    (place lo v).getLsbD i = (decide (i < 16) && decide (lo ≤ i) && v.getLsbD (i - lo)) := by
  by_cases hi : i < 16
  · by_cases hlo : lo ≤ i
    · simp [place, hi, hlo, Nat.not_lt.mpr hlo]
    · simp [place, hlo, Nat.lt_of_not_le hlo]
  · simp [place, hi]

@[simp] theorem getElem_place {m : Nat} (lo : Nat) (v : BitVec m) (i : Nat) (hi : i < 16) :
    (place lo v)[i] = (decide (lo ≤ i) && v.getLsbD (i - lo)) := by
  rw [← BitVec.getLsbD_eq_getElem, getLsbD_place, decide_eq_true hi, Bool.true_and]

/-- A value is read back from the field it was placed in. -/
@[simp] theorem field_place_same {n lo : Nat} (v : BitVec n) (fits : lo + n ≤ 16) : field lo n (place lo v) = v := by
  ext i hi
  rw [← BitVec.getLsbD_eq_getElem, ← BitVec.getLsbD_eq_getElem, getLsbD_field, getLsbD_place]
  simp [hi, Nat.lt_of_lt_of_le (Nat.add_lt_add_left hi lo) fits]

/-- A value placed beside a field leaves it zero. -/
@[simp] theorem field_place_apart {m lo lo' n : Nat} (v : BitVec m) (apart : lo' + m ≤ lo ∨ lo + n ≤ lo') :
    field lo n (place lo' v) = 0 := by
  ext i hi
  rw [← BitVec.getLsbD_eq_getElem, getLsbD_field, getLsbD_place]
  obtain below | above := apart
  · simp [BitVec.getLsbD_of_ge v (lo + i - lo') (by omega)]
  · simp [show ¬ lo' ≤ lo + i by omega]

/-- A field of a fixed word. -/
@[simp] theorem field_ofNat (lo n x : Nat) :
    field lo n (BitVec.ofNat 16 x) = BitVec.ofNat n (x % 2 ^ 16 / 2 ^ lo) :=
  BitVec.eq_of_toNat_eq (by simp [toNat_field])

/-! ## Decoding, variant by variant (rules R63, R68, R69) -/

section
variable {w : Word}

theorem decode_br (op : Config.opcodeMap (field 12 4 w) = .br) : decode w = .br (field 9 3 w) (field 0 9 w) := by
  simp only [decode, op]

theorem decode_add (op : Config.opcodeMap (field 12 4 w) = .add) (mode : w.getLsbD 5 = false) :
    decode w = .add (regField 9 w) (regField 6 w) (regField 0 w) := by
  simp only [decode, op, mode, reduceIte, Bool.false_eq_true]

theorem decode_addi (op : Config.opcodeMap (field 12 4 w) = .add) (mode : w.getLsbD 5 = true) :
    decode w = .addi (regField 9 w) (regField 6 w) (field 0 5 w) := by
  simp only [decode, op, mode, reduceIte]

theorem decode_ld (op : Config.opcodeMap (field 12 4 w) = .ld) : decode w = .ld (regField 9 w) (field 0 9 w) := by
  simp only [decode, op]

theorem decode_st (op : Config.opcodeMap (field 12 4 w) = .st) : decode w = .st (regField 9 w) (field 0 9 w) := by
  simp only [decode, op]

theorem decode_jsrr (op : Config.opcodeMap (field 12 4 w) = .jsr) (mode : w.getLsbD 11 = false) :
    decode w = .jsrr (regField 6 w) := by
  simp only [decode, op, mode, reduceIte, Bool.false_eq_true]

theorem decode_jsr (op : Config.opcodeMap (field 12 4 w) = .jsr) (mode : w.getLsbD 11 = true) :
    decode w = .jsr (field 0 11 w) := by
  simp only [decode, op, mode, reduceIte]

theorem decode_and (op : Config.opcodeMap (field 12 4 w) = .and) (mode : w.getLsbD 5 = false) :
    decode w = .and (regField 9 w) (regField 6 w) (regField 0 w) := by
  simp only [decode, op, mode, reduceIte, Bool.false_eq_true]

theorem decode_andi (op : Config.opcodeMap (field 12 4 w) = .and) (mode : w.getLsbD 5 = true) :
    decode w = .andi (regField 9 w) (regField 6 w) (field 0 5 w) := by
  simp only [decode, op, mode, reduceIte]

theorem decode_ldr (op : Config.opcodeMap (field 12 4 w) = .ldr) :
    decode w = .ldr (regField 9 w) (regField 6 w) (field 0 6 w) := by
  simp only [decode, op]

theorem decode_str (op : Config.opcodeMap (field 12 4 w) = .str) :
    decode w = .str (regField 9 w) (regField 6 w) (field 0 6 w) := by
  simp only [decode, op]

theorem decode_rti (op : Config.opcodeMap (field 12 4 w) = .rti) : decode w = .rti (field 0 12 w) := by
  simp only [decode, op]

theorem decode_not (op : Config.opcodeMap (field 12 4 w) = .not) : decode w = .not (regField 9 w) (regField 6 w) := by
  simp only [decode, op]

theorem decode_ldi (op : Config.opcodeMap (field 12 4 w) = .ldi) : decode w = .ldi (regField 9 w) (field 0 9 w) := by
  simp only [decode, op]

theorem decode_sti (op : Config.opcodeMap (field 12 4 w) = .sti) : decode w = .sti (regField 9 w) (field 0 9 w) := by
  simp only [decode, op]

theorem decode_jmp (op : Config.opcodeMap (field 12 4 w) = .jmp) : decode w = .jmp (regField 6 w) := by
  simp only [decode, op]

theorem decode_res (op : Config.opcodeMap (field 12 4 w) = .res) : decode w = .res (field 0 12 w) := by
  simp only [decode, op]

theorem decode_lea (op : Config.opcodeMap (field 12 4 w) = .lea) : decode w = .lea (regField 9 w) (field 0 9 w) := by
  simp only [decode, op]

theorem decode_trap (op : Config.opcodeMap (field 12 4 w) = .trap) : decode w = decodeTrap (field 0 8 w) := by
  simp only [decode, op]

end

/-! ## The variant of an instruction -/

/-- The variant an instruction is a form of (rule R68). -/
def Instr.variant : Instr → Opcode
  | .br .. => .br
  | .add .. | .addi .. => .add
  | .ld .. => .ld
  | .st .. => .st
  | .jsrr .. | .jsr .. => .jsr
  | .and .. | .andi .. => .and
  | .ldr .. => .ldr
  | .str .. => .str
  | .rti .. => .rti
  | .not .. => .not
  | .ldi .. => .ldi
  | .sti .. => .sti
  | .jmp .. => .jmp
  | .res .. => .res
  | .lea .. => .lea
  | .getc | .out | .puts | .input | .putsp | .halt | .trap .. => .trap

theorem variant_decodeTrap (vect : Byte) : (decodeTrap vect).variant = .trap := by
  unfold decodeTrap
  split <;> rfl

/-- Decoding answers a form of the variant that the opcode value names (rule R68). -/
theorem variant_decode (w : Word) : (decode w).variant = Config.opcodeMap (field 12 4 w) := by
  unfold decode
  cases Config.opcodeMap (field 12 4 w) with
  | add | jsr | and => dsimp only; split <;> rfl
  | trap => exact variant_decodeTrap _
  | _ => rfl

theorem opcodeField_of_decode {w : Word} {i : Instr} (h : decode w = i) :
    field 12 4 w = Config.opcodeMap.symm i.variant := by
  rw [← h, variant_decode, Equiv.symm_apply_apply]

/-- The encoder puts the variant's opcode value at bits 15:12 (rules R61, R77). -/
theorem opcodeMap_field_encode (i : Instr) : Config.opcodeMap (field 12 4 (encode i)) = i.variant := by
  cases i <;> simp [encode, placeReg, Instr.variant]

theorem decodeTrap_of_wellFormed {vect : Byte} (wf : (Instr.trap vect).wellFormed = true) :
    decodeTrap vect = .trap vect := by
  have other := (Machine.wellFormed_trap_iff vect).mp wf
  unfold decodeTrap
  split
  case h_7 => rfl
  all_goals omega

theorem decodeTrap_wellFormed (vect : Byte) : (decodeTrap vect).wellFormed = true := by
  unfold decodeTrap
  split
  case h_7 => exact (Machine.wellFormed_trap_iff vect).mpr (by grind)
  all_goals rfl

/-- No word decodes to the general TRAP term with the vector of a routine. -/
theorem decode_wellFormed (w : Word) : (decode w).wellFormed = true := by
  unfold decode
  cases Config.opcodeMap (field 12 4 w) with
  | add | jsr | and => dsimp only; split <;> rfl
  | trap => exact decodeTrap_wellFormed _
  | _ => rfl

/-- The opcode value is read back by `opcodeMap_field_encode`, then the mode bit, then each field from its place. -/
theorem decode_encode {i : Instr} (wf : i.wellFormed = true) : decode (encode i) = i := by
  have op := opcodeMap_field_encode i
  cases i with
  | br nzp off => rw [decode_br op]; simp [encode]
  | add dr sr1 sr2 =>
    rw [decode_add op (by simp [encode, placeReg])]
    simp [encode, regField, placeReg]
  | addi dr sr1 imm =>
    rw [decode_addi op (by simp [encode])]
    simp [encode, regField, placeReg]
  | ld dr off => rw [decode_ld op]; simp [encode, regField, placeReg]
  | st sr off => rw [decode_st op]; simp [encode, regField, placeReg]
  | jsrr base => rw [decode_jsrr op (by simp [encode, placeReg])]; simp [encode, regField, placeReg]
  | jsr off => rw [decode_jsr op (by simp [encode])]; simp [encode]
  | and dr sr1 sr2 =>
    rw [decode_and op (by simp [encode, placeReg])]
    simp [encode, regField, placeReg]
  | andi dr sr1 imm =>
    rw [decode_andi op (by simp [encode])]
    simp [encode, regField, placeReg]
  | ldr dr base off => rw [decode_ldr op]; simp [encode, regField, placeReg]
  | str sr base off => rw [decode_str op]; simp [encode, regField, placeReg]
  | rti low => rw [decode_rti op]; simp [encode]
  | not dr sr => rw [decode_not op]; simp [encode, regField, placeReg]
  | ldi dr off => rw [decode_ldi op]; simp [encode, regField, placeReg]
  | sti sr off => rw [decode_sti op]; simp [encode, regField, placeReg]
  | jmp base => rw [decode_jmp op]; simp [encode, regField, placeReg]
  | res low => rw [decode_res op]; simp [encode]
  | lea dr off => rw [decode_lea op]; simp [encode, regField, placeReg]
  | getc | out | puts | input | putsp | halt => rfl
  | trap vect => rw [decode_trap op]; simp [encode, decodeTrap_of_wellFormed wf]

/-- Settles O1: opcode, mode bit and operands of a well-formed instruction are read back from its word. -/
theorem decodeInvertsEncode : Obligations.DecodeInvertsEncode := fun _ wf => decode_encode wf

/-- Settles O2: what decoding answers is well-formed, so its own word gives it back. -/
theorem decodeIsTotalAndWellFormed : Obligations.DecodeIsTotalAndWellFormed := fun w =>
  ⟨decode_wellFormed w, decode_encode (decode_wellFormed w)⟩

/-- Settles O6, each word evaluated. -/
theorem sampleWordsDecode : Obligations.SampleWordsDecode :=
  ⟨rfl, rfl, rfl, rfl, rfl, rfl, rfl, rfl, rfl, rfl, rfl, rfl⟩

/-! ## Ignored bits (rule R65, decision D4) -/

/-- Two words agree on every bit outside a mask. -/
def AgreeOutside (mask w v : Word) : Prop := (w ^^^ v) &&& ~~~ mask = 0

theorem AgreeOutside.getLsbD_eq {mask w v : Word} (agree : AgreeOutside mask w v) {i : Nat}
    (outside : mask.getLsbD i = false) : w.getLsbD i = v.getLsbD i := by
  have bit : ((w ^^^ v) &&& ~~~ mask).getLsbD i = false := by rw [agree]; simp
  simp only [BitVec.getLsbD_and, BitVec.getLsbD_xor, BitVec.getLsbD_not, outside] at bit
  grind

/-- A field that no bit of the mask is in has one value in both words. -/
theorem AgreeOutside.field_eq {mask w v : Word} (agree : AgreeOutside mask w v) {lo n : Nat}
    (outside : field lo n mask = 0) : field lo n w = field lo n v := by
  refine BitVec.eq_of_getLsbD_eq fun i hi => ?_
  have bit : mask.getLsbD (lo + i) = false := by
    have := getLsbD_field lo n mask i
    simpa [outside, hi] using this.symm
  rw [getLsbD_field, getLsbD_field, agree.getLsbD_eq bit]

theorem AgreeOutside.regField_eq {mask w v : Word} (agree : AgreeOutside mask w v) {lo : Nat}
    (outside : field lo 3 mask = 0) : regField lo w = regField lo v :=
  congrArg Reg.ofField (agree.field_eq outside)

/-- Where nothing is masked the words are the same. -/
theorem AgreeOutside.eq_of_mask_eq_zero {mask w v : Word} (agree : AgreeOutside mask w v) (blank : mask = 0) : w = v :=
  BitVec.eq_of_getLsbD_eq fun _ _ => agree.getLsbD_eq (blank ▸ BitVec.getLsbD_zero)

/-- No opcode bit is ignored (rules R61, R63). -/
theorem field_opcode_ignoredBits (w : Word) : field 12 4 (Machine.ignoredBits w) = 0 := by
  unfold Machine.ignoredBits
  cases Config.opcodeMap (field 12 4 w) with
  | add | and | jsr => dsimp only; split <;> rfl
  | _ => dsimp only; rfl

/-- The register forms of ADD and AND read the mode bit and the fields at 9, 6 and 0, all outside bits 4:3. -/
theorem AgreeOutside.registerForm {w v : Word} (agree : AgreeOutside 0x0018 w v) :
    w.getLsbD 5 = v.getLsbD 5 ∧ regField 9 w = regField 9 v ∧ regField 6 w = regField 6 v ∧
      regField 0 w = regField 0 v :=
  ⟨agree.getLsbD_eq rfl, agree.regField_eq rfl, agree.regField_eq rfl, agree.regField_eq rfl⟩

/-- Decoding reads no ignored bit: where none is ignored the words are the same, and elsewhere each field that decoding
reads lies outside the mask. -/
theorem decode_eq_of_agreeOutside_ignoredBits {w v : Word} (agree : AgreeOutside (Machine.ignoredBits w) w v) :
    decode w = decode v := by
  by_cases blank : Machine.ignoredBits w = 0
  · rw [agree.eq_of_mask_eq_zero blank]
  have opv : Config.opcodeMap (field 12 4 v) = Config.opcodeMap (field 12 4 w) :=
    congrArg _ (agree.field_eq (field_opcode_ignoredBits w)).symm
  cases op : Config.opcodeMap (field 12 4 w) with
  | br | ld | st | ldr | str | rti | ldi | sti | res | lea =>
    exact absurd (by simp only [Machine.ignoredBits, op]) blank
  | add =>
    have mode : w.getLsbD 5 = false :=
      Bool.eq_false_iff.mpr fun immediate => blank (by simp only [Machine.ignoredBits, op, immediate, reduceIte])
    simp only [Machine.ignoredBits, op, mode, Bool.false_eq_true, reduceIte] at agree opv
    obtain ⟨modes, dr, sr1, sr2⟩ := agree.registerForm
    rw [decode_add op mode, decode_add opv (modes ▸ mode), dr, sr1, sr2]
  | and =>
    have mode : w.getLsbD 5 = false :=
      Bool.eq_false_iff.mpr fun immediate => blank (by simp only [Machine.ignoredBits, op, immediate, reduceIte])
    simp only [Machine.ignoredBits, op, mode, Bool.false_eq_true, reduceIte] at agree opv
    obtain ⟨modes, dr, sr1, sr2⟩ := agree.registerForm
    rw [decode_and op mode, decode_and opv (modes ▸ mode), dr, sr1, sr2]
  | jsr =>
    have mode : w.getLsbD 11 = false :=
      Bool.eq_false_iff.mpr fun relative => blank (by simp only [Machine.ignoredBits, op, relative, reduceIte])
    simp only [Machine.ignoredBits, op, mode, Bool.false_eq_true, reduceIte] at agree opv
    have modes : w.getLsbD 11 = v.getLsbD 11 := agree.getLsbD_eq rfl
    rw [decode_jsrr op mode, decode_jsrr opv (modes ▸ mode), agree.regField_eq rfl]
  | not =>
    simp only [Machine.ignoredBits, op] at agree opv
    rw [decode_not op, decode_not opv, agree.regField_eq (lo := 9) rfl, agree.regField_eq (lo := 6) rfl]
  | jmp =>
    simp only [Machine.ignoredBits, op] at agree opv
    rw [decode_jmp op, decode_jmp opv, agree.regField_eq rfl]
  | trap =>
    simp only [Machine.ignoredBits, op] at agree opv
    rw [decode_trap op, decode_trap opv, agree.field_eq rfl]

/-- Settles O3: words that decode alike execute alike. -/
theorem ignoredBitsDoNotMatter : Obligations.IgnoredBitsDoNotMatter := fun _ _ agree =>
  have same := decode_eq_of_agreeOutside_ignoredBits agree
  ⟨same, fun s => congrArg (Machine.exec · s) same⟩

end Sys2Proof

/-! # What the decoded words do: illegal opcodes, TRAP vectors, operands, BR (30_encoding.md rules R66, R71 to R73) -/

namespace Sys2Proof.Machine

/-! ## The illegal opcodes -/

theorem decode_eq_rti_iff (w : Word) : (∃ low, decode w = .rti low) ↔ field 12 4 w = 0b1000 :=
  ⟨fun ⟨_, h⟩ => opcodeField_of_decode h, fun h => ⟨_, decode_rti (by rw [h]; rfl)⟩⟩

theorem decode_eq_res_iff (w : Word) : (∃ low, decode w = .res low) ↔ field 12 4 w = 0b1101 :=
  ⟨fun ⟨_, h⟩ => opcodeField_of_decode h, fun h => ⟨_, decode_res (by rw [h]; rfl)⟩⟩

/-- The words of one opcode value are a block of 4,096. -/
theorem opcodeField_eq_iff (w : Word) (b : BitVec 4) :
    field 12 4 w = b ↔ b.toNat * 4096 ≤ w.toNat ∧ w.toNat < (b.toNat + 1) * 4096 := by
  have bound := w.isLt
  rw [← BitVec.toNat_inj, toNat_field]
  omega

/-- A word is its opcode value and its low twelve bits. -/
theorem opcodeField_append_low (w : Word) : field 12 4 w ++ field 0 12 w = w := by
  have joined : field 12 4 w ++ field 0 12 w = field 0 16 w :=
    BitVec.extractLsb'_append_extractLsb'_eq_extractLsb' rfl
  rw [joined]
  exact BitVec.extractLsb'_eq_self

theorem exec_rti (low : BitVec 12) (s : State) :
    exec (.rti low) s = .next (s.raise (.illegalOpcode ((0b1000 : BitVec 4) ++ low))) := rfl

theorem exec_res (low : BitVec 12) (s : State) :
    exec (.res low) s = .next (s.raise (.illegalOpcode ((0b1101 : BitVec 4) ++ low))) := rfl

/-- The record holds the word as it was fetched (60_exceptions.md rule R151). -/
theorem exec_decode_illegalOpcode {w : Word} (illegal : field 12 4 w = 0b1000 ∨ field 12 4 w = 0b1101) (s : State) :
    exec (decode w) s = .next (s.raise (.illegalOpcode w)) := by
  obtain op | op := illegal
  · rw [decode_rti (by rw [op]; rfl), exec_rti, ← op, opcodeField_append_low]
  · rw [decode_res (by rw [op]; rfl), exec_res, ← op, opcodeField_append_low]

/-- Settles O4: each illegal opcode's block of words, and the fault that `exec` takes for it. -/
theorem illegalOpcodeWordsRaise : Obligations.IllegalOpcodeWordsRaise := by
  refine ⟨fun w => ?_, fun w => ?_, fun w s illegal => ⟨_, exec_decode_illegalOpcode illegal s, rfl, rfl⟩⟩
  · rw [decode_eq_rti_iff, opcodeField_eq_iff]
    exact and_congr_right' Nat.lt_succ_iff
  · rw [decode_eq_res_iff, opcodeField_eq_iff]
    exact and_congr_right' Nat.lt_succ_iff

/-! ## String walks end (44_trap.md rule R133) -/

/-- A poll with no key makes the status cell read zero, which ends a walk (20_memory.md rule R47). -/
theorem State.memRead_kbsr_noKey {s : State} (nothing : s.kbdIn = []) : (s.memRead Config.mrKbsr).1 = 0x0000 := by
  rw [State.memRead_kbsr]
  exact State.kbdPoll_status_noKey nothing

/-- A poll with a key takes one character (20_memory.md rule R46). -/
theorem State.memRead_kbsr_kbdIn_length {s : State} (waiting : s.kbdIn ≠ []) :
    (s.memRead Config.mrKbsr).2.kbdIn.length + 1 = s.kbdIn.length := by
  obtain ⟨c, rest, oldest⟩ := List.exists_cons_of_ne_nil waiting
  rw [State.memRead_kbsr, State.kbdPoll_kbdIn_key oldest, oldest, List.length_cons]

/-- How many reads a walk at `a` can still make before the one that ends it: those on the way to the status address, and
a round of the address space for each waiting character. -/
def readsLeft (a : Word) (s : State) : Nat := (Config.mrKbsr - a).toNat + s.kbdIn.length * 65536

/-- A read that does not end the walk leaves fewer. -/
theorem readsLeft_succ_lt {a : Word} {s : State} (goesOn : (s.memRead a).1 ≠ 0x0000) (out : List Byte) :
    readsLeft (a + 1) ((s.memRead a).2.consoleWriteSeq out) < readsLeft a s := by
  unfold readsLeft
  rw [State.consoleWriteSeq_kbdIn]
  by_cases status : a = Config.mrKbsr
  · subst status
    have taken := State.memRead_kbsr_kbdIn_length fun nothing => goesOn (State.memRead_kbsr_noKey nothing)
    have round : (Config.mrKbsr - (Config.mrKbsr + 1)).toNat = 65535 := rfl
    omega
  · rw [State.memRead_of_ne status]
    have nearer : (Config.mrKbsr - (a + 1)).toNat < (Config.mrKbsr - a).toNat := by
      unfold Config.mrKbsr at *
      bv_omega
    exact Nat.add_lt_add_right nearer _

/-- A walk given more reads than are left ends. -/
theorem walk_completes {chars : Word → List Byte} {n : Nat} {a : Word} {s : State} (enough : readsLeft a s < n) :
    ∃ t, walk chars n a s = some t := by
  induction n generalizing a s with
  | zero => exact absurd enough (Nat.not_lt_zero _)
  | succ n ih =>
    rw [walk_succ]
    split
    · exact ⟨_, rfl⟩
    · next goesOn => exact ih (by have := readsLeft_succ_lt goesOn (chars (s.memRead a).1); omega)

theorem readsLeft_lt_walkBound (a : Word) (s : State) : readsLeft a s < walkBound s := by
  have distance := (Config.mrKbsr - a).isLt
  unfold readsLeft walkBound
  omega

/-- PUTS and PUTSP always answer a next state (70_reset_and_hazards.md rule R195). -/
theorem walkFromR0_completes (chars : Word → List Byte) (s : State) : ∃ t, walkFromR0 chars s = .next t := by
  obtain ⟨t, ends⟩ := walk_completes (chars := chars) (readsLeft_lt_walkBound (s.reg .r0) s)
  exact ⟨t, walkFromR0_of_walk ends⟩

/-! ## The six routines and the unknown vectors (rules R72, R130, R137) -/

/-- What the decoder's rows of TRAP mean is what the dispatch by vector means (rule R130). -/
theorem exec_decodeTrap (vect : Byte) (s : State) : exec (decodeTrap vect) s = execTrap vect s := by
  unfold decodeTrap
  split
  case h_7 => rfl
  all_goals
    next vector => simp only [execTrap, vector]; rfl

/-- A vector that names no routine faults after the link (rule R137). -/
theorem execTrap_of_no_routine {vect : Byte} (other : ¬ (0x20 ≤ vect.toNat ∧ vect.toNat ≤ 0x25)) (s : State) :
    execTrap vect s = .next (s.link.raise (.illegalTrapVector vect)) := by
  unfold execTrap
  dsimp only
  split
  case h_7 => rfl
  all_goals omega

/-- `t` is a next state of `s` with no fault taken: the record is as before and a running machine is not FAULTED. -/
def NoFaultTaken (s t : State) : Prop := t.fault = s.fault ∧ (s.run = .running → t.run ≠ .faulted)

theorem noFaultTaken_of_run_eq {s t : State} (fault : t.fault = s.fault) (run : t.run = s.run) : NoFaultTaken s t :=
  ⟨fault, fun running => by simp [run, running]⟩

/-- A console read completes or holds (60_exceptions.md rule R163). -/
theorem readOrHold_noFault (w : ConsoleWait) (s : State) : ∃ t, readOrHold w s = .next t ∧ NoFaultTaken s t := by
  cases keys : s.kbdIn with
  | nil => exact ⟨_, readOrHold_nil keys w, noFaultTaken_of_run_eq rfl rfl⟩
  | cons c rest => exact ⟨_, readOrHold_cons keys w, noFaultTaken_of_run_eq rfl rfl⟩

/-- A string walk ends, and its reads take no fault (rule R133). -/
theorem walkFromR0_noFault (chars : Word → List Byte) (s : State) :
    ∃ t, walkFromR0 chars s = .next t ∧ NoFaultTaken s t := by
  obtain ⟨t, next⟩ := walkFromR0_completes chars s
  obtain ⟨out, polled⟩ := walkFromR0_frame next
  exact ⟨t, next, noFaultTaken_of_run_eq polled.fault polled.run⟩

/-- A vector that names a routine runs it and takes no fault (rule R130). -/
theorem execTrap_of_routine {vect : Byte} (routine : 0x20 ≤ vect.toNat ∧ vect.toNat ≤ 0x25) (s : State) :
    ∃ t, execTrap vect s = .next t ∧ NoFaultTaken s t := by
  unfold execTrap
  dsimp only
  split
  · exact readOrHold_noFault .getc s.link
  · exact ⟨_, rfl, noFaultTaken_of_run_eq rfl rfl⟩
  · exact walkFromR0_noFault putsChars s.link
  · exact readOrHold_noFault .input (s.link.consoleWriteSeq Config.inPrompt)
  · exact walkFromR0_noFault putspChars s.link
  · exact ⟨_, rfl, rfl, fun _ => by simp⟩
  · grind

/-- Settles O5: the two halves of the dispatch by vector. -/
theorem trapVectorsNameSixRoutines : Obligations.TrapVectorsNameSixRoutines := by
  intro w s op
  rw [decode_trap (by rw [op]; rfl), exec_decodeTrap]
  by_cases routine : 0x20 ≤ (field 0 8 w).toNat ∧ (field 0 8 w).toNat ≤ 0x25
  · obtain ⟨t, next, noFault⟩ := execTrap_of_routine routine s
    exact ⟨t, next, fun _ => noFault, fun other => absurd routine other⟩
  · exact ⟨_, execTrap_of_no_routine routine s, fun named => absurd named routine, fun _ => ⟨rfl, rfl⟩⟩

/-! ## Sign extension (rule R66) -/

/-- Bits below n are the value's, and the others its bit n - 1. -/
theorem getLsbD_sext {n : Nat} (v : BitVec n) {i : Nat} (hi : i < 16) :
    (sext v).getLsbD i = if i < n then v.getLsbD i else v.getLsbD (n - 1) := by
  have ones (k : Nat) (hk : k < 16) : (0xFFFF#16)[k] = true := BitVec.getElem_allOnes k hk
  unfold sext
  by_cases low : i < n
  · cases v.getLsbD (n - 1) <;> simp [hi, low]
  · have above : v.getLsbD i = false := BitVec.getLsbD_of_ge v i (Nat.le_of_not_lt low)
    cases sign : v.getLsbD (n - 1) <;> simp [hi, low, above, ones]

/-- Rule R66 is the two's-complement extension. -/
theorem sext_eq_signExtend {n : Nat} (v : BitVec n) : sext v = v.signExtend 16 := by
  refine BitVec.eq_of_getLsbD_eq fun i hi => ?_
  rw [getLsbD_sext v hi, BitVec.getLsbD_signExtend, decide_eq_true hi, Bool.true_and, BitVec.msb_eq_getLsbD_last]

theorem toInt_sext {n : Nat} (v : BitVec n) (fits : n ≤ 16) : (sext v).toInt = v.toInt := by
  rw [sext_eq_signExtend, BitVec.toInt_signExtend_of_le fits]

/-- The value's bit at each position up to n - 1, and bit n - 1 from there on. -/
theorem getLsbD_sext_min {n : Nat} (v : BitVec n) {i : Nat} (hi : i < 16) :
    (sext v).getLsbD i = v.getLsbD (min i (n - 1)) := by
  rw [getLsbD_sext v hi]
  split
  · next low => rw [Nat.min_eq_left (by omega)]
  · next high => rw [Nat.min_eq_right (by omega)]

/-- What rule R66 asks at one width. -/
theorem sext_preserves {n : Nat} (fits : n ≤ 16) (v : BitVec n) :
    (sext v).toInt = v.toInt ∧ ∀ i < 16, (sext v).getLsbD i = v.getLsbD (min i (n - 1)) :=
  ⟨toInt_sext v fits, fun _ => getLsbD_sext_min v⟩

/-- Settles O7: the law for every width up to 16, at the four that are used. -/
theorem signExtensionPreservesValue : Obligations.SignExtensionPreservesValue :=
  ⟨sext_preserves (by decide), sext_preserves (by decide), sext_preserves (by decide), sext_preserves (by decide)⟩

/-! ## BR with the two extreme condition fields (rule R73) -/

/-- The words 0x0000 to 0x01FF are BR with an empty condition field. -/
theorem decode_of_le_0x01FF {w : Word} (small : w.toNat ≤ 0x01FF) : decode w = .br 0 (field 0 9 w) := by
  have opcode : field 12 4 w = 0 := BitVec.eq_of_toNat_eq (by rw [toNat_field]; simp; omega)
  have nzp : field 9 3 w = 0 := BitVec.eq_of_toNat_eq (by rw [toNat_field]; simp; omega)
  rw [decode_br (by rw [opcode]; rfl), nzp]

/-- Every code meets the full condition field. -/
theorem branchTaken_full (c : Cond) : branchTaken 0b111 c = true := by cases c <;> rfl

theorem exec_br (nzp : BitVec 3) (off : BitVec 9) (s : State) :
    exec (.br nzp off) s = .next (if branchTaken nzp s.cond then s.setPc (pcRel9 s off) else s) := rfl

theorem exec_br_fullField (off : BitVec 9) (s : State) : exec (.br 0b111 off) s = .next (s.setPc (pcRel9 s off)) := by
  rw [exec_br, branchTaken_full, if_pos rfl]

/-- Settles O30: an empty condition field meets no code, a full one every code. -/
theorem branchZeroMaskNeverAllOnesAlways : Obligations.BranchZeroMaskNeverAllOnesAlways :=
  ⟨fun w s small => by rw [decode_of_le_0x01FF small, exec_br_emptyField],
    fun off s => ⟨_, exec_br_fullField off s, rfl, rfl⟩⟩

end Sys2Proof.Machine

/-! # The step (40_cycle.md) -/

namespace Sys2Proof.Machine

/-! ## What one step is enabled by -/

/-- A console read completes or holds, and both are next states (60_exceptions.md rule R163). -/
theorem readOrHold_completes (w : ConsoleWait) (s : State) : ∃ t, readOrHold w s = .next t :=
  (readOrHold_noFault w s).imp fun _ => And.left

/-- A held machine goes on with its read or stays as it is (60_exceptions.md rule R163). -/
theorem resumeHold_completes (w : ConsoleWait) (s : State) : ∃ t, resumeHold w s = .next t := by
  cases keys : s.kbdIn with
  | nil => exact ⟨_, resumeHold_nil keys w⟩
  | cons c rest => exact ⟨_, resumeHold_cons keys w⟩

/-- Every vector runs its routine to the end or faults, and taking a fault is a next state (rules R130, R137). -/
theorem execTrap_completes (vect : Byte) (s : State) : ∃ t, execTrap vect s = .next t := by
  by_cases routine : 0x20 ≤ vect.toNat ∧ vect.toNat ≤ 0x25
  · exact (execTrap_of_routine routine s).imp fun _ => And.left
  · exact ⟨_, execTrap_of_no_routine routine s⟩

/-- Every instruction answers a next state. Only the console reads and the string walks have a branch that could fail
to; the meaning of each other instruction is written as a next state (70_reset_and_hazards.md rule R195). -/
theorem exec_completes (i : Instr) (s : State) : ∃ t, exec i s = .next t := by
  cases i with
  | getc => exact readOrHold_completes .getc s.link
  | input => exact readOrHold_completes .input (s.link.consoleWriteSeq Config.inPrompt)
  | puts => exact walkFromR0_completes putsChars s.link
  | putsp => exact walkFromR0_completes putspChars s.link
  | trap vect => exact execTrap_completes vect s
  | _ => exact ⟨_, rfl⟩

/-- A running machine that holds goes on with its console read (60_exceptions.md rule R163). -/
theorem step_of_held {s : State} {w : ConsoleWait} (running : s.run = .running) (held : s.hold = some w) :
    step s = resumeHold w s := by
  simp only [step, running, held]

/-- A running machine answers a next state, held or not (rule R90). -/
theorem step_completes {s : State} (running : s.run = .running) : ∃ t, step s = .next t := by
  cases hold : s.hold with
  | none =>
    rw [step_of_running running hold]
    exact exec_completes _ _
  | some w =>
    rw [step_of_held running hold]
    exact resumeHold_completes w s

/-- Settles O20: a next state comes from a running machine only, and every running machine has one. -/
theorem stepIsEnabledExactlyWhenRunning : Obligations.StepIsEnabledExactlyWhenRunning := fun _ =>
  ⟨fun ⟨_, next⟩ => (step_cases next).1, step_completes⟩

/-! ## What one step does -/

/-- Settles O19: the step of a running machine through the two forms of the fetch. -/
theorem stepRunsTheDecodedInstruction : Obligations.StepRunsTheDecodedInstruction := by
  intro s running free
  have fetched := step_of_running running free
  refine ⟨?_, fun plain => ?_⟩
  · rw [fetched, State.fetch_eq]
    rfl
  · rw [fetched, State.fetch_of_ne plain]
    rfl

end Sys2Proof.Machine

/-! # ADD, AND, NOT (41_operate.md) -/

namespace Sys2Proof

/-! ## Decoding (rules R63, R70) -/

/-- Opcode 0001 with bit 5 as the mode bit; bits 4:3 of the register form are read by neither branch (R65). -/
theorem decode_opcode0001 {w : Word} (op : field 12 4 w = 0b0001) :
    decode w = if w.getLsbD 5 then .addi (regField 9 w) (regField 6 w) (field 0 5 w)
      else .add (regField 9 w) (regField 6 w) (regField 0 w) := by
  have map : Config.opcodeMap (field 12 4 w) = .add := by rw [op]; rfl
  split
  · next immediate => exact decode_addi map immediate
  · next register => exact decode_add map (Bool.eq_false_of_not_eq_true register)

/-- Opcode 0101, by the same mode bit. -/
theorem decode_opcode0101 {w : Word} (op : field 12 4 w = 0b0101) :
    decode w = if w.getLsbD 5 then .andi (regField 9 w) (regField 6 w) (field 0 5 w)
      else .and (regField 9 w) (regField 6 w) (regField 0 w) := by
  have map : Config.opcodeMap (field 12 4 w) = .and := by rw [op]; rfl
  split
  · next immediate => exact decode_andi map immediate
  · next register => exact decode_and map (Bool.eq_false_of_not_eq_true register)

end Sys2Proof

namespace Sys2Proof.Machine

/-! ## Each meaning is one result write (rules R101 to R103) -/

theorem exec_add (dr sr1 sr2 : Reg) (s : State) :
    exec (.add dr sr1 sr2) s = .next (s.writeResult dr (s.reg sr1 + s.reg sr2)) := rfl

theorem exec_addi (dr sr1 : Reg) (imm : BitVec 5) (s : State) :
    exec (.addi dr sr1 imm) s = .next (s.writeResult dr (s.reg sr1 + sext imm)) := rfl

theorem exec_and (dr sr1 sr2 : Reg) (s : State) :
    exec (.and dr sr1 sr2) s = .next (s.writeResult dr (s.reg sr1 &&& s.reg sr2)) := rfl

theorem exec_andi (dr sr1 : Reg) (imm : BitVec 5) (s : State) :
    exec (.andi dr sr1 imm) s = .next (s.writeResult dr (s.reg sr1 &&& sext imm)) := rfl

/-- The spec's exclusive or with 0xFFFF is the complement. -/
theorem exec_not (dr sr : Reg) (s : State) : exec (.not dr sr) s = .next (s.writeResult dr (~~~ s.reg sr)) := by
  have complement : s.reg sr ^^^ 0xFFFF = ~~~ s.reg sr := BitVec.xor_allOnes
  rw [← complement]
  rfl

/-- What every result write does besides the value it writes: cond takes the value's sign (rule R18), and no other
register and no other field changes. -/
theorem State.writeResult_flags_frame (s : State) (dr : Reg) (v : Word) :
    CondMatches (s.writeResult dr v).cond ((s.writeResult dr v).reg dr) ∧ SameRegsBut [dr] s (s.writeResult dr v) ∧
    (s.writeResult dr v).pc = s.pc ∧ SameMemBut [] s (s.writeResult dr v) ∧ SameConsole s (s.writeResult dr v) ∧
    SameControl s (s.writeResult dr v) := by
  have sign : CondMatches (s.writeResult dr v).cond ((s.writeResult dr v).reg dr) := by
    rw [State.writeResult_cond, State.reg_writeResult_same]
    exact condMatches_signCond v
  exact ⟨sign, s.writeResult_sameRegsBut dr v, s.writeResult_pc dr v,
    fun a _ => congrArg (Memory.read · a) (s.writeResult_mem dr v),
    ⟨s.writeResult_kbdIn dr v, s.writeResult_conOut dr v⟩,
    ⟨s.writeResult_run dr v, s.writeResult_fault dr v, s.writeResult_hold dr v⟩⟩

/-! ## The obligations -/

/-- Settles O26: the result is the sum of two words, whose value is the sum modulo 65,536. -/
theorem addWritesSumAndFlags : Obligations.AddWritesSumAndFlags := by
  refine ⟨fun w op => decode_opcode0001 op, fun dr sr1 sr2 s => ?_, fun dr sr1 imm s => ?_⟩
  · exact ⟨_, exec_add dr sr1 sr2 s, by rw [State.reg_writeResult_same, BitVec.toNat_add],
      s.writeResult_flags_frame dr _⟩
  · exact ⟨_, exec_addi dr sr1 imm s, by rw [State.reg_writeResult_same, BitVec.toNat_add],
      s.writeResult_flags_frame dr _⟩

/-- Settles O27: the result is the bitwise AND of two words. -/
theorem andWritesBitwiseAndFlags : Obligations.AndWritesBitwiseAndFlags := by
  refine ⟨fun w op => decode_opcode0101 op, fun dr sr1 sr2 s => ?_, fun dr sr1 imm s => ?_⟩
  · exact ⟨_, exec_and dr sr1 sr2 s, fun i => by rw [State.reg_writeResult_same, BitVec.getLsbD_and],
      s.writeResult_flags_frame dr _⟩
  · exact ⟨_, exec_andi dr sr1 imm s, fun i => by rw [State.reg_writeResult_same, BitVec.getLsbD_and],
      s.writeResult_flags_frame dr _⟩

/-- Settles O28: the result is the complement, at each of the 16 bits of a word. -/
theorem notWritesComplementAndFlags : Obligations.NotWritesComplementAndFlags := by
  refine ⟨fun w op => decode_not (by rw [op]; rfl), fun dr sr s => ?_⟩
  have complement (i : Nat) (hi : i < 16) : (~~~ s.reg sr).getLsbD i = !(s.reg sr).getLsbD i := by
    rw [BitVec.getLsbD_not, decide_eq_true hi, Bool.true_and]
  exact ⟨_, exec_not dr sr s, fun i hi => by rw [State.reg_writeResult_same, complement i hi],
    s.writeResult_flags_frame dr _⟩

end Sys2Proof.Machine

/-! # BR, JMP, JSR, JSRR (42_control.md) -/

namespace Sys2Proof.Machine

/-! ## What every control transfer keeps -/

/-- `t` is `s` but for pc and the registers in `written`: the frame of the four control transfers. -/
def SameButPc (written : List Reg) (s t : State) : Prop :=
  SameRegsBut written s t ∧ t.cond = s.cond ∧ SameMemBut [] s t ∧ SameConsole s t ∧ SameControl s t

theorem State.setPc_sameButPc (s : State) (v : Word) : SameButPc [] s (s.setPc v) :=
  ⟨fun q _ => s.reg_setPc v q, s.setPc_cond v, fun a _ => congrArg (Memory.read · a) (s.setPc_mem v),
    ⟨s.setPc_kbdIn v, s.setPc_conOut v⟩, ⟨s.setPc_run v, s.setPc_fault v, s.setPc_hold v⟩⟩

/-- The link writes R7, and the jump after it pc. -/
theorem State.link_setPc_sameButPc (s : State) (v : Word) : SameButPc [.r7] s (s.link.setPc v) := by
  obtain ⟨-, cond, mem, console, control⟩ := s.link.setPc_sameButPc v
  exact ⟨fun q other => (s.link.reg_setPc v q).trans (s.link_sameRegsBut q other), cond, mem, console, control⟩

/-- A link saves the incremented pc, and the jump after it keeps what was saved. -/
theorem State.reg_link_setPc_r7 (s : State) (v : Word) : (s.link.setPc v).reg .r7 = s.pc := by
  rw [State.reg_setPc, State.reg_link_r7]

/-! ## Each meaning is one write of pc, after the link where there is one (rules R110 to R113) -/

/-- BR writes pc either way: the branch not taken leaves it at the incremented pc. -/
theorem exec_br_eq_setPc (nzp : BitVec 3) (off : BitVec 9) (s : State) :
    exec (.br nzp off) s = .next (s.setPc (if branchTaken nzp s.cond then s.pc + sext off else s.pc)) := by
  rw [exec_br]
  split <;> rfl

theorem exec_jmp (base : Reg) (s : State) : exec (.jmp base) s = .next (s.setPc (s.reg base)) := rfl

theorem exec_jsr (off : BitVec 11) (s : State) : exec (.jsr off) s = .next (s.link.setPc (s.pc + sext off)) := rfl

theorem exec_jsrr (base : Reg) (s : State) : exec (.jsrr base) s = .next (s.link.setPc (s.link.reg base)) := rfl

/-- The one-hot code selects its bit of the condition field (rule R17, decision D3). -/
theorem branchTaken_iff (nzp : BitVec 3) (c : Cond) :
    branchTaken nzp c = true ↔
      nzp.getLsbD 2 = true ∧ c = .negative ∨ nzp.getLsbD 1 = true ∧ c = .zero ∨
        nzp.getLsbD 0 = true ∧ c = .positive := by
  revert nzp
  cases c with
  | positive => decide
  | zero => decide
  | negative => decide

/-! ## The obligations -/

/-- Settles O29: pc is chosen by `branchTaken`, which is the condition of the statement. -/
theorem branchFollowsConditionField : Obligations.BranchFollowsConditionField := by
  refine ⟨fun w op => decode_br (by rw [op]; rfl), fun nzp off s =>
    ⟨_, exec_br_eq_setPc nzp off s, fun taken => ?_, fun notTaken => ?_, s.setPc_sameButPc _⟩⟩
  · rw [State.setPc_pc, if_pos ((branchTaken_iff nzp s.cond).mpr taken), BitVec.toNat_add]
  · rw [State.setPc_pc, if_neg (mt (branchTaken_iff nzp s.cond).mp notTaken)]

/-- Settles O31: the one write of JMP is pc's. -/
theorem jumpTakesBaseRegister : Obligations.JumpTakesBaseRegister :=
  ⟨fun _ op => decode_jmp (by rw [op]; rfl), fun base s =>
    ⟨_, exec_jmp base s, s.setPc_pc _, s.setPc_sameButPc _⟩⟩

/-- Settles O32: the target is a sum of two words, whose value is the sum modulo 65,536. -/
theorem jsrLinksAndJumpsRelative : Obligations.JsrLinksAndJumpsRelative :=
  ⟨fun _ op mode => decode_jsr (by rw [op]; rfl) mode, fun off s =>
    ⟨_, exec_jsr off s, s.reg_link_setPc_r7 _, by rw [State.setPc_pc, BitVec.toNat_add],
      s.link_setPc_sameButPc _⟩⟩

/-- Settles O33: the base register is read after the link, which changes R7 alone. -/
theorem jsrrLinksThenReadsBase : Obligations.JsrrLinksThenReadsBase := by
  refine ⟨fun w op mode => decode_jsrr (by rw [op]; rfl) mode, fun base s =>
    ⟨_, exec_jsrr base s, s.reg_link_setPc_r7 _, fun other => ?_, fun same => ?_, s.link_setPc_sameButPc _⟩⟩
  · rw [State.setPc_pc, State.reg_link_other s other]
  · rw [State.setPc_pc, same, State.reg_link_r7]

end Sys2Proof.Machine

/-! # LD, LDI, LDR, LEA, ST, STI, STR (43_load_store.md) -/

namespace Sys2Proof.Machine

/-! ## Each meaning is one load, one result write or one store, after the pointer's read where there is one (rules R120
to R126) -/

theorem exec_ld (dr : Reg) (off : BitVec 9) (s : State) :
    exec (.ld dr off) s = .next (s.loadFrom dr (s.pc + sext off)) := rfl

theorem exec_ldi (dr : Reg) (off : BitVec 9) (s : State) :
    exec (.ldi dr off) s =
      .next ((s.memRead (s.pc + sext off)).2.loadFrom dr (s.memRead (s.pc + sext off)).1) := rfl

theorem exec_ldr (dr base : Reg) (off : BitVec 6) (s : State) :
    exec (.ldr dr base off) s = .next (s.loadFrom dr (s.reg base + sext off)) := rfl

theorem exec_lea (dr : Reg) (off : BitVec 9) (s : State) :
    exec (.lea dr off) s = .next (s.writeResult dr (s.pc + sext off)) := rfl

theorem exec_st (sr : Reg) (off : BitVec 9) (s : State) :
    exec (.st sr off) s = .next (s.memWrite (s.pc + sext off) (s.reg sr)) := rfl

/-- The pointer's read leaves the source register, so STI stores its old value. -/
theorem exec_sti (sr : Reg) (off : BitVec 9) (s : State) :
    exec (.sti sr off) s =
      .next ((s.memRead (s.pc + sext off)).2.memWrite (s.memRead (s.pc + sext off)).1 (s.reg sr)) := by
  rw [← s.memRead_reg (s.pc + sext off) sr]
  rfl

theorem exec_str (sr base : Reg) (off : BitVec 6) (s : State) :
    exec (.str sr base off) s = .next (s.memWrite (s.reg base + sext off) (s.reg sr)) := rfl

/-! ## What a load or a store keeps of the state before the pointer's read -/

/-- A load writes nothing on the console: its read can only take characters in (20_memory.md rule R46). -/
theorem LoadsFrom.conOut {ea : Word} {dr : Reg} {s t : State} (loads : LoadsFrom ea dr s t) : t.conOut = s.conOut := by
  obtain ⟨-, -, -, -, -, ⟨-, out⟩, -⟩ := loads
  exact out.trans (s.memRead_conOut ea)

/-- A load after a read that may have polled: the poll changes only the keyboard cells and kbd_in. -/
theorem LoadsFrom.frame_of_polled {ea : Word} {dr : Reg} {s u t : State} (polled : PollFrame s u)
    (loads : LoadsFrom ea dr u t) :
    SameRegsBut [dr] s t ∧ t.pc = s.pc ∧ t.conOut = s.conOut ∧ SameControl s t := by
  have out := loads.conOut.trans polled.conOut
  obtain ⟨-, -, regs, pc, -, -, ⟨run, fault, hold⟩, -⟩ := loads
  exact ⟨fun r other => (regs r other).trans (polled.reg r), pc.trans polled.pc, out,
    ⟨run.trans polled.run, fault.trans polled.fault, hold.trans polled.hold⟩⟩

/-- A load through a pointer, where neither read is at the status address (20_memory.md rule R43). -/
theorem State.loadFrom_pointer_of_ne {s : State} {ea : Word} (dr : Reg) (pointer : ea ≠ Config.mrKbsr)
    (datum : s.mem.read ea ≠ Config.mrKbsr) :
    ((s.memRead ea).2.loadFrom dr (s.memRead ea).1).reg dr = s.mem.read (s.mem.read ea) ∧
    SameMemBut [] s ((s.memRead ea).2.loadFrom dr (s.memRead ea).1) ∧
    SameConsole s ((s.memRead ea).2.loadFrom dr (s.memRead ea).1) := by
  rw [State.memRead_of_ne pointer]
  obtain ⟨-, -, -, -, -, -, -, plain⟩ := s.loadFrom_loads dr (s.mem.read ea)
  exact plain datum

/-- A store after a read that may have polled. -/
theorem State.memWrite_frame_of_polled {s u : State} (polled : PollFrame s u) (a v : Word) :
    SameRegsBut [] s (u.memWrite a v) ∧ (u.memWrite a v).pc = s.pc ∧ (u.memWrite a v).cond = s.cond ∧
    (u.memWrite a v).conOut = s.conOut ∧ SameControl s (u.memWrite a v) := by
  obtain ⟨-, -, regs, pc, cond, ⟨-, out⟩, run, fault, hold⟩ := memWriteStoresOneCell u a v
  exact ⟨fun r other => (regs r other).trans (polled.reg r), pc.trans polled.pc, cond.trans polled.cond,
    out.trans polled.conOut, ⟨run.trans polled.run, fault.trans polled.fault, hold.trans polled.hold⟩⟩

/-- A store through a pointer that does not stand at the status address (20_memory.md rules R43, R44). -/
theorem State.memWrite_pointer_of_ne {s : State} {ea : Word} (v : Word) (pointer : ea ≠ Config.mrKbsr) :
    ((s.memRead ea).2.memWrite (s.memRead ea).1 v).mem.read (s.mem.read ea) = v ∧
    SameMemBut [s.mem.read ea] s ((s.memRead ea).2.memWrite (s.memRead ea).1 v) ∧
    SameConsole s ((s.memRead ea).2.memWrite (s.memRead ea).1 v) := by
  rw [State.memRead_of_ne pointer]
  obtain ⟨cell, mem, -, -, -, console, -⟩ := memWriteStoresOneCell s (s.mem.read ea) v
  exact ⟨cell, mem, console⟩

/-! ## The obligations -/

/-- Settles O34: LD is one load, at the PC-relative address. -/
theorem ldLoadsPcRelative : Obligations.LdLoadsPcRelative :=
  ⟨fun _ op => decode_ld (by rw [op]; rfl), fun dr off s => ⟨_, exec_ld dr off s, s.loadFrom_loads dr _⟩⟩

/-- Settles O35: LDI is one load in the state the pointer's read leaves, and that read changes no more than a poll. -/
theorem ldiLoadsThroughPointer : Obligations.LdiLoadsThroughPointer := by
  refine ⟨fun w op => decode_ldi (by rw [op]; rfl), fun dr off s => ?_⟩
  have loads := (s.memRead (s.pc + sext off)).2.loadFrom_loads dr (s.memRead (s.pc + sext off)).1
  obtain ⟨regs, pc, out, control⟩ := loads.frame_of_polled (s.memRead_frame (s.pc + sext off))
  exact ⟨_, exec_ldi dr off s, loads, regs, pc, out, control, State.loadFrom_pointer_of_ne dr⟩

/-- Settles O36: LDR is one load, whose address is formed before DR is written. -/
theorem ldrLoadsBasePlusOffset : Obligations.LdrLoadsBasePlusOffset :=
  ⟨fun _ op => decode_ldr (by rw [op]; rfl), fun dr base off s =>
    ⟨_, exec_ldr dr base off s, s.loadFrom_loads dr _⟩⟩

/-- Settles O37: the address is a sum of two words, and LEA writes it as a result. -/
theorem leaWritesAddressAndFlags : Obligations.LeaWritesAddressAndFlags :=
  ⟨fun _ op => decode_lea (by rw [op]; rfl), fun dr off s =>
    ⟨_, exec_lea dr off s, by rw [State.reg_writeResult_same, BitVec.toNat_add], s.writeResult_flags_frame dr _⟩⟩

/-- Settles O38: ST is one store, at the PC-relative address. -/
theorem stStoresPcRelative : Obligations.StStoresPcRelative :=
  ⟨fun _ op => decode_st (by rw [op]; rfl), fun sr off s => ⟨_, exec_st sr off s, memWriteStoresOneCell s _ _⟩⟩

/-- Settles O39: STI is one store in the state the pointer's read leaves, at the word that read gives. -/
theorem stiStoresThroughPointer : Obligations.StiStoresThroughPointer := by
  refine ⟨fun w op => decode_sti (by rw [op]; rfl), fun sr off s => ?_⟩
  have pointer := s.memRead_frame (s.pc + sext off)
  obtain ⟨cell, mem, -, -, -, console, -⟩ :=
    memWriteStoresOneCell (s.memRead (s.pc + sext off)).2 (s.memRead (s.pc + sext off)).1 (s.reg sr)
  obtain ⟨regs, pc, cond, out, control⟩ := State.memWrite_frame_of_polled pointer _ (s.reg sr)
  exact ⟨_, exec_sti sr off s, cell, mem, console, regs, pc, cond, out, control, State.memWrite_pointer_of_ne _⟩

/-- Settles O40: STR is one store, at the base register plus the offset. -/
theorem strStoresBasePlusOffset : Obligations.StrStoresBasePlusOffset :=
  ⟨fun _ op => decode_str (by rw [op]; rfl), fun sr base off s =>
    ⟨_, exec_str sr base off s, memWriteStoresOneCell s _ _⟩⟩

end Sys2Proof.Machine

/-! # TRAP and the six routines (44_trap.md) -/

namespace Sys2Proof.Machine

/-! ## Dispatch by vector (rule R130) -/

/-- Settles O22: `exec_completes`. -/
theorem execAlwaysCompletes : Obligations.ExecAlwaysCompletes := exec_completes

theorem namesRoutine_iff (vect : Byte) : namesRoutine vect = true ↔ 0x20 ≤ vect.toNat ∧ vect.toNat ≤ 0x25 := by
  simp only [namesRoutine, Bool.and_eq_true, decide_eq_true_eq]

/-- The six vectors, one by one. -/
theorem routineVector_cases {vect : Byte} (named : namesRoutine vect = true) :
    vect = 0x20 ∨ vect = 0x21 ∨ vect = 0x22 ∨ vect = 0x23 ∨ vect = 0x24 ∨ vect = 0x25 := by
  rw [namesRoutine_iff] at named
  simp only [← BitVec.toNat_inj, BitVec.toNat_ofNat, BitVec.ofNat_eq_ofNat]
  omega

theorem exec_trap (vect : Byte) (s : State) : exec (.trap vect) s = execTrap vect s := rfl

/-- Every row of TRAP means what the dispatch by its vector means. -/
theorem exec_of_trapVector {i : Instr} {vect : Byte} (row : trapVector i = some vect) (s : State) :
    exec i s = execTrap vect s := by
  cases i with
  | getc => cases row; exact exec_decodeTrap 0x20 s
  | out => cases row; exact exec_decodeTrap 0x21 s
  | puts => cases row; exact exec_decodeTrap 0x22 s
  | input => cases row; exact exec_decodeTrap 0x23 s
  | putsp => cases row; exact exec_decodeTrap 0x24 s
  | halt => cases row; exact exec_decodeTrap 0x25 s
  | trap vect => cases row; rfl
  | _ => cases row

theorem exec_trap_of_namesRoutine_false {vect : Byte} (other : namesRoutine vect = false) (s : State) :
    exec (.trap vect) s = .next (s.link.raise (.illegalTrapVector vect)) :=
  execTrap_of_no_routine (fun named => by simp [(namesRoutine_iff vect).mpr named] at other) s

/-- Settles O41: the decoder's row of each vector is the routine it dispatches to. -/
theorem trapDispatchesByVector : Obligations.TrapDispatchesByVector := by
  refine ⟨fun w op s => ?_, fun s => ?_, fun vect s other => ?_⟩
  · rw [decode_trap (by rw [op]; rfl), exec_decodeTrap, exec_trap]
  · have row {i : Instr} {vect : Byte} (h : trapVector i = some vect) : exec (.trap vect) s = exec i s :=
      (exec_of_trapVector h s).symm
    exact ⟨row rfl, row rfl, row rfl, row rfl, row rfl, row rfl⟩
  · exact ⟨_, exec_trap_of_namesRoutine_false other s, rfl, rfl⟩

/-! ## What the link and a console write keep -/

/-- The frame of a routine that writes `out` to the console and nothing else (rules R130, R138). -/
theorem State.link_consoleWriteSeq_frame (s : State) (out : List Byte) :
    let t := s.link.consoleWriteSeq out
    t.conOut = s.conOut ++ out ∧ t.reg .r7 = s.pc ∧ SameRegsBut [.r7] s t ∧ t.pc = s.pc ∧ t.cond = s.cond ∧
    t.kbdIn = s.kbdIn ∧ SameMemBut [] s t ∧ SameControl s t :=
  ⟨rfl, s.reg_link_r7, s.link_sameRegsBut, rfl, rfl, rfl, fun _ _ => rfl, rfl, rfl, rfl⟩

theorem exec_out (s : State) : exec .out s = .next (s.link.consoleWriteSeq [(s.reg .r0).extractLsb' 0 8]) := rfl

/-- Settles O44: OUT writes one character after the link. -/
theorem outWritesLowByteOfR0 : Obligations.OutWritesLowByteOfR0 := fun s =>
  ⟨_, exec_out s, s.link_consoleWriteSeq_frame _⟩

theorem exec_halt (s : State) :
    exec .halt s = .next { s.link.consoleWriteSeq Config.haltNotice with run := .halted } := rfl

theorem no_step_of_not_running {s : State} (ended : s.run ≠ .running) (t : State) : step s ≠ .next t :=
  fun next => ended (step_cases next).1

/-- Settles O50: HALT writes its notice after the link, and ends the run. -/
theorem haltEndsTheRun : Obligations.HaltEndsTheRun := by
  intro s
  obtain ⟨conOut, r7, regs, pc, cond, kbdIn, mem, -, fault, hold⟩ := s.link_consoleWriteSeq_frame Config.haltNotice
  exact ⟨_, exec_halt s, rfl, conOut, r7, regs, pc, cond, kbdIn, mem, fault, hold,
    no_step_of_not_running (by simp)⟩

/-- Settles O51: the fault is taken in the state after the link. -/
theorem unknownVectorRaises : Obligations.UnknownVectorRaises := fun _ s other =>
  ⟨_, execTrap_of_no_routine (by omega) s, rfl, rfl, s.reg_link_r7, s.link_sameRegsBut, rfl, rfl, fun _ _ => rfl,
    ⟨rfl, rfl⟩, rfl⟩

/-! ## The console reads of GETC and IN (rules R131, R134) -/

/-- What a routine writes before its read: GETC nothing, IN the prompt. -/
def ConsoleWait.prompt : ConsoleWait → List Byte
  | .getc => []
  | .input => Config.inPrompt

/-- The vector of the routine that waits. -/
def ConsoleWait.vector : ConsoleWait → Byte
  | .getc => 0x20
  | .input => 0x23

theorem exec_getc (s : State) :
    exec .getc s = readOrHold .getc (s.link.consoleWriteSeq (ConsoleWait.prompt .getc)) := by
  rw [ConsoleWait.prompt, State.consoleWriteSeq_nil]
  rfl

theorem exec_input (s : State) :
    exec .input s = readOrHold .input (s.link.consoleWriteSeq (ConsoleWait.prompt .input)) := rfl

theorem State.afterRead_sameRegsBut (s : State) (w : ConsoleWait) (c : Byte) (rest : List Byte) :
    SameRegsBut [.r0] s (s.afterRead w c rest) :=
  fun _ other => s.gprs.get_set_other (by simpa using other) _

theorem SameRegsBut.trans {v w : List Reg} {s t u : State} (f : SameRegsBut v s t) (g : SameRegsBut w t u) :
    SameRegsBut (w ++ v) s u := fun r hr => by
  rw [List.mem_append, not_or] at hr
  exact (g r hr.1).trans (f r hr.2)

theorem SameRegsBut.mono {v w : List Reg} {s t : State} (f : SameRegsBut v s t) (sub : v ⊆ w) : SameRegsBut w s t :=
  fun r hr => f r fun hv => hr (sub hv)

/-- The frame of a completed GETC or IN: the link, what is written before and after the read, and the character. -/
theorem State.link_read_frame (s : State) (prompt : List Byte) (w : ConsoleWait) (c : Byte) (rest : List Byte) :
    let t := (s.link.consoleWriteSeq prompt).afterRead w c rest
    (t.reg .r0).toNat = c.toNat ∧ t.cond = (if c = 0 then .zero else .positive) ∧ t.kbdIn = rest ∧
    t.conOut = s.conOut ++ prompt ++ w.echo c ∧ t.reg .r7 = s.pc ∧ SameRegsBut [.r0, .r7] s t ∧ t.pc = s.pc ∧
    SameMemBut [] s t ∧ SameControl s t :=
  ⟨toNat_zext16 c, signCond_zext16 c, rfl, rfl, rfl,
    s.link_sameRegsBut.trans (State.afterRead_sameRegsBut _ w c rest), rfl, fun _ _ => rfl, rfl, rfl, rfl⟩

/-- Settles O43: the frame of a read with no prompt and no echo. -/
theorem getcReadsOneCharacter : Obligations.GetcReadsOneCharacter := by
  intro s c rest waiting
  obtain ⟨r0, cond, kbdIn, conOut, frame⟩ := s.link_read_frame (ConsoleWait.prompt .getc) .getc c rest
  have next := (exec_getc s).trans (readOrHold_cons (s := s.link.consoleWriteSeq _) waiting .getc)
  refine ⟨_, next, r0, cond, kbdIn, ?_, frame⟩
  rw [conOut, ConsoleWait.prompt, ConsoleWait.echo, List.append_nil, List.append_nil]

/-- Settles O45: the frame of a read with a prompt and an echo. -/
theorem inPromptsReadsAndEchoes : Obligations.InPromptsReadsAndEchoes := fun s c rest waiting =>
  ⟨_, (exec_input s).trans (readOrHold_cons (s := s.link.consoleWriteSeq _) waiting .input),
    s.link_read_frame (ConsoleWait.prompt .input) .input c rest⟩

/-! ## String walks (rules R133, R135) -/

theorem exec_puts (s : State) : exec .puts s = walkFromR0 putsChars s.link := rfl

theorem exec_putsp (s : State) : exec .putsp s = walkFromR0 putspChars s.link := rfl

theorem putsChars_eq (w : Word) : putsChars w = [w.setWidth 8] := rfl

/-- The high byte as the spec writes it: the word shifted down. -/
theorem extractLsb'_high (w : Word) : w.extractLsb' 8 8 = (w >>> 8).setWidth 8 := by
  ext i hi
  simp

theorem extractLsb'_high_eq_zero_iff (w : Word) : w.extractLsb' 8 8 = 0x00#8 ↔ w >>> 8 = 0 := by
  have bound := w.isLt
  rw [← BitVec.toNat_inj, ← BitVec.toNat_inj, BitVec.extractLsb'_toNat, BitVec.toNat_ushiftRight,
    Nat.shiftRight_eq_div_pow]
  change _ % 2 ^ 8 = 0 ↔ _ = 0
  omega

theorem putspChars_eq (w : Word) :
    putspChars w = if w >>> 8 = 0 then [w.setWidth 8] else [w.setWidth 8, (w >>> 8).setWidth 8] := by
  simp only [putspChars, extractLsb'_high_eq_zero_iff]
  rw [extractLsb'_high]
  rfl

/-- Two walks from one address in one state, whatever their bounds, end in the same state. -/
theorem walk_unique {chars : Word → List Byte} {m n : Nat} {a : Word} {s t u : State}
    (h : walk chars m a s = some t) (k : walk chars n a s = some u) : t = u := by
  have common := walk_of_more h n
  rw [Nat.add_comm, walk_of_more k m] at common
  exact (Option.some.inj common).symm

/-- The bound of PUTS and PUTSP is no part of their meaning: any bound that suffices gives their next state. -/
theorem walkFromR0_of_walk_any {chars : Word → List Byte} {n : Nat} {s t : State}
    (h : walk chars n (s.reg .r0) s = some t) : walkFromR0 chars s = .next t := by
  obtain ⟨u, ends⟩ := walk_completes (chars := chars) (readsLeft_lt_walkBound (s.reg .r0) s)
  exact walk_unique ends h ▸ walkFromR0_of_walk ends

/-- A register write commutes with a walk. -/
theorem walk_setReg {chars : Word → List Byte} {n : Nat} {a : Word} {s t : State} (h : walk chars n a s = some t)
    (r : Reg) (v : Word) : walk chars n a (s.setReg r v) = some (t.setReg r v) := by
  obtain ⟨_, frame⟩ := walk_frame h
  have same : t.gprs = s.gprs := frame.gprs
  rw [State.setReg, walk_withGprs, h, State.setReg, same]
  rfl

/-- PUTS and PUTSP from a walk before the link. -/
theorem walkFromR0_link_of_walk {chars : Word → List Byte} {n : Nat} {s t : State}
    (h : walk chars n (s.reg .r0) s = some t) : walkFromR0 chars s.link = .next (t.setReg .r7 s.pc) :=
  walkFromR0_of_walk_any (walk_setReg h .r7 s.pc)

/-! ## The loop, one word at a time (rule R133) -/

theorem walkFromR0_link_of_zero (chars : Word → List Byte) {s : State} (zero : (s.memRead (s.reg .r0)).1 = 0x0000) :
    walkFromR0 chars s.link = .next ((s.memRead (s.reg .r0)).2.setReg .r7 s.pc) :=
  walkFromR0_link_of_walk (n := 1) (by rw [walk_succ, if_pos zero])

/-- Going back to the address a walk began at: R0 is written over, and the link is not. -/
theorem State.setReg_r0_r7_r0 (s : State) (a v : Word) :
    (((s.setReg .r0 a).setReg .r7 v).setReg .r0 (s.reg .r0)) = s.setReg .r7 v := rfl

/-- Where a walk from R0 goes on at the next address in a state `s1` with the registers of `s`, so does the routine. -/
theorem walkFromR0_link_of_next {chars : Word → List Byte} {s s1 : State} (gprs : s1.gprs = s.gprs) (pc : s1.pc = s.pc)
    (goesOn : ∀ n, walk chars (n + 1) (s.reg .r0) s = walk chars n (s.reg .r0 + 1) s1) :
    ∃ t, walkFromR0 chars (s1.setReg .r0 (s.reg .r0 + 1)).link = .next t ∧
      walkFromR0 chars s.link = .next (t.setReg .r0 (s.reg .r0)) := by
  obtain ⟨u, rest⟩ := walk_completes (chars := chars) (Nat.lt_succ_self (readsLeft (s.reg .r0 + 1) s1))
  obtain ⟨_, frame⟩ := walk_frame rest
  have r0 : u.reg .r0 = s.reg .r0 := (frame.reg .r0).trans (congrArg (Gprs.get · .r0) gprs)
  refine ⟨_, walkFromR0_link_of_walk (walk_setReg rest .r0 (s.reg .r0 + 1)), ?_⟩
  rw [walkFromR0_link_of_walk ((goesOn _).trans rest), State.setReg_pc, pc, ← r0, State.setReg_r0_r7_r0]

/-- A nonzero word is written, and the rest is the routine from the next address. -/
theorem walkFromR0_link_of_ne_zero (chars : Word → List Byte) {s : State}
    (nonzero : (s.memRead (s.reg .r0)).1 ≠ 0x0000) :
    ∃ t, walkFromR0 chars (((s.memRead (s.reg .r0)).2.consoleWriteSeq (chars (s.memRead (s.reg .r0)).1)).setReg .r0
        (s.reg .r0 + 1)).link = .next t ∧
      walkFromR0 chars s.link = .next (t.setReg .r0 (s.reg .r0)) :=
  walkFromR0_link_of_next (s.memRead_gprs _) (s.memRead_pc _) fun n => by rw [walk_succ, if_neg nonzero]

/-- Settles O47: the loop with the characters of PUTS. -/
theorem putsLoopReadsWordByWord : Obligations.PutsLoopReadsWordByWord := by
  intro s
  simp only [exec_puts, ← putsChars_eq]
  exact ⟨walkFromR0_link_of_zero putsChars, walkFromR0_link_of_ne_zero putsChars⟩

/-- Settles O49: the loop with the characters of PUTSP. -/
theorem putspLoopReadsWordByWord : Obligations.PutspLoopReadsWordByWord := by
  intro s
  simp only [exec_putsp, ← putspChars_eq]
  exact ⟨walkFromR0_link_of_zero putspChars, walkFromR0_link_of_ne_zero putspChars⟩

/-! ## Strings that do not reach the status address (rules R133, R135) -/

/-- The nonzero words `ws` and a zero word stand from `a` on, none of them in the status cell. -/
def StringAt (m : Memory) : Word → List Word → Prop
  | a, [] => a ≠ Config.mrKbsr ∧ m.read a = 0x0000
  | a, w :: ws => a ≠ Config.mrKbsr ∧ m.read a = w ∧ w ≠ 0x0000 ∧ StringAt m (a + 1) ws

theorem add_one_add_ofNat (a : Word) (k : Nat) : a + 1 + BitVec.ofNat 16 k = a + BitVec.ofNat 16 (k + 1) := by
  rw [BitVec.add_assoc, Nat.add_comm k 1, BitVec.ofNat_add]
  rfl

/-- The hypotheses of O46 and O48, cell by cell. -/
theorem stringAt_of_cells {m : Memory} {a : Word} {ws : List Word} (nonzero : ∀ w ∈ ws, w ≠ 0x0000)
    (words : ∀ k < ws.length, m.read (a + BitVec.ofNat 16 k) = ws.getD k 0)
    (terminator : m.read (a + BitVec.ofNat 16 ws.length) = 0x0000)
    (plain : ∀ k ≤ ws.length, a + BitVec.ofNat 16 k ≠ Config.mrKbsr) : StringAt m a ws := by
  induction ws generalizing a with
  | nil => exact ⟨BitVec.add_zero a ▸ plain 0 le_rfl, BitVec.add_zero a ▸ terminator⟩
  | cons w ws ih =>
    have start : a + BitVec.ofNat 16 0 = a := BitVec.add_zero a
    have rest : StringAt m (a + 1) ws :=
      ih (fun v hv => nonzero v (List.mem_cons_of_mem w hv))
        (fun k hk => add_one_add_ofNat a k ▸ words (k + 1) (Nat.succ_lt_succ hk))
        (add_one_add_ofNat a ws.length ▸ terminator)
        (fun k hk => add_one_add_ofNat a k ▸ plain (k + 1) (Nat.succ_le_succ hk))
    have first : m.read (a + BitVec.ofNat 16 0) = w := words 0 (Nat.succ_pos _)
    exact ⟨start ▸ plain 0 (Nat.zero_le _), start ▸ first, nonzero w List.mem_cons_self, rest⟩

theorem State.consoleWriteSeq_append (s : State) (cs ds : List Byte) :
    (s.consoleWriteSeq cs).consoleWriteSeq ds = s.consoleWriteSeq (cs ++ ds) := by
  simp [State.consoleWriteSeq]

/-- A walk over such a string writes the characters of its words and changes nothing else. -/
theorem walk_of_stringAt (chars : Word → List Byte) {a : Word} {ws : List Word} {s : State}
    (string : StringAt s.mem a ws) :
    walk chars (ws.length + 1) a s = some (s.consoleWriteSeq (ws.flatMap chars)) := by
  induction ws generalizing a s with
  | nil =>
    obtain ⟨plain, zero⟩ := string
    rw [walk_succ, State.memRead_of_ne plain, if_pos zero, List.flatMap_nil, State.consoleWriteSeq_nil]
  | cons w ws ih =>
    obtain ⟨plain, word, nonzero, rest⟩ := string
    have tail := ih (s := s.consoleWriteSeq (chars w)) rest
    rw [State.consoleWriteSeq_append] at tail
    rw [List.length_cons, walk_succ, State.memRead_of_ne plain, word, if_neg nonzero, tail, List.flatMap_cons]

/-- PUTS and PUTSP of such a string. -/
theorem walkFromR0_link_of_stringAt (chars : Word → List Byte) {s : State} {ws : List Word}
    (string : StringAt s.mem (s.reg .r0) ws) :
    walkFromR0 chars s.link = .next (s.link.consoleWriteSeq (ws.flatMap chars)) :=
  walkFromR0_of_walk_any (walk_of_stringAt chars (s := s.link) string)

/-- Settles O46: a walk over the string, with the characters of PUTS. -/
theorem putsWritesWordString : Obligations.PutsWritesWordString := by
  intro s ws nonzero words terminator plain
  have string := stringAt_of_cells nonzero words terminator plain
  have chars : ws.flatMap putsChars = ws.map fun w : Word => w.setWidth 8 := by
    rw [funext putsChars_eq]
    exact List.flatMap_pure_eq_map _ ws
  refine ⟨_, (exec_puts s).trans (walkFromR0_link_of_stringAt putsChars string), ?_⟩
  rw [chars]
  exact s.link_consoleWriteSeq_frame _

/-- Settles O48: a walk over the string, with the characters of PUTSP. -/
theorem putspWritesPackedString : Obligations.PutspWritesPackedString := by
  intro s ws nonzero words terminator plain
  have string := stringAt_of_cells nonzero words terminator plain
  refine ⟨_, (exec_putsp s).trans (walkFromR0_link_of_stringAt putspChars string), ?_⟩
  rw [funext putspChars_eq]
  exact s.link_consoleWriteSeq_frame _

/-! ## What every TRAP keeps (rules R130, R138) -/

/-- What O42 asks of a next state `t` of a TRAP with vector `vect` in `s`. -/
structure TrapRule (vect : Byte) (s t : State) : Prop where
  link : t.reg .r7 = s.pc
  pc : t.pc = s.pc
  regs : SameRegsBut [.r0, .r7] s t
  reads : vect ≠ 0x20 → vect ≠ 0x23 → t.reg .r0 = s.reg .r0 ∧ t.cond = s.cond ∧ t.hold = s.hold
  polls : SameMemBut [Config.mrKbsr, Config.mrKbdr] s t
  mem : vect ≠ 0x22 → vect ≠ 0x24 → SameMemBut [] s t
  kbdIn : vect = 0x21 ∨ vect = 0x25 ∨ namesRoutine vect = false → t.kbdIn = s.kbdIn
  conOut : vect = 0x20 ∨ namesRoutine vect = false → t.conOut = s.conOut
  control : namesRoutine vect = true → t.fault = s.fault ∧ (vect ≠ 0x25 → t.run = s.run)

/-- GETC and IN: both may write R0, cond and hold and take a character, and IN alone writes to the console. -/
theorem TrapRule.of_wait {s t : State} (w : ConsoleWait) (link : t.reg .r7 = s.pc) (pc : t.pc = s.pc)
    (regs : SameRegsBut [.r0, .r7] s t) (mem : SameMemBut [] s t) (run : t.run = s.run) (fault : t.fault = s.fault)
    (silent : w = .getc → t.conOut = s.conOut) : TrapRule w.vector s t where
  link := link
  pc := pc
  regs := regs
  reads not20 not23 := by
    cases w
    · exact absurd rfl not20
    · exact absurd rfl not23
  polls a _ := mem a List.not_mem_nil
  mem _ _ := mem
  kbdIn spared := absurd spared (by cases w <;> decide)
  conOut spared := by
    cases w
    · exact silent rfl
    · exact absurd spared (by decide)
  control _ := ⟨fault, fun _ => run⟩

/-- A console read completes or holds (60_exceptions.md rule R163). -/
theorem readOrHold_trapRule (w : ConsoleWait) (s : State) :
    ∃ t, readOrHold w (s.link.consoleWriteSeq w.prompt) = .next t ∧ TrapRule w.vector s t := by
  obtain ⟨t, next⟩ := readOrHold_completes w (s.link.consoleWriteSeq w.prompt)
  refine ⟨t, next, ?_⟩
  obtain ⟨c, rest, -, rfl⟩ | ⟨-, rfl⟩ := readOrHold_cases next
  · obtain ⟨-, -, -, conOut, r7, regs, pc, mem, run, fault, -⟩ := s.link_read_frame w.prompt w c rest
    refine .of_wait w r7 pc regs mem run fault fun silent => ?_
    subst silent
    simpa [ConsoleWait.prompt, ConsoleWait.echo] using conOut
  · obtain ⟨conOut, r7, regs, pc, -, -, mem, run, fault, -⟩ := s.link_consoleWriteSeq_frame w.prompt
    refine .of_wait w r7 pc (regs.mono (by simp)) mem run fault fun silent => ?_
    subst silent
    simp [ConsoleWait.prompt]

/-- The other routines and the unknown vectors: of the registers the link alone is written. -/
theorem TrapRule.of_link {vect : Byte} {s t : State} (gprs : t.gprs = s.link.gprs) (pc : t.pc = s.pc)
    (cond : t.cond = s.cond) (hold : t.hold = s.hold) (polls : SameMemBut [Config.mrKbsr, Config.mrKbdr] s t)
    (mem : vect ≠ 0x22 → vect ≠ 0x24 → SameMemBut [] s t)
    (kbdIn : vect = 0x21 ∨ vect = 0x25 ∨ namesRoutine vect = false → t.kbdIn = s.kbdIn)
    (conOut : vect = 0x20 ∨ namesRoutine vect = false → t.conOut = s.conOut)
    (control : namesRoutine vect = true → t.fault = s.fault ∧ (vect ≠ 0x25 → t.run = s.run)) : TrapRule vect s t := by
  have reg (r : Reg) : t.reg r = s.link.reg r := congrArg (Gprs.get · r) gprs
  have regs : SameRegsBut [.r7] s t := fun r other => (reg r).trans (s.link_sameRegsBut r other)
  exact {
    link := (reg .r7).trans s.reg_link_r7, pc, regs := regs.mono (by simp), polls, mem, kbdIn, conOut, control
    reads := fun _ _ => ⟨regs .r0 (by simp), cond, hold⟩ }

/-- PUTS and PUTSP: only a poll changes memory and kbd_in. -/
theorem walkFromR0_trapRule (chars : Word → List Byte) {vect : Byte} (walks : vect = 0x22 ∨ vect = 0x24) (s : State) :
    ∃ t, walkFromR0 chars s.link = .next t ∧ TrapRule vect s t := by
  obtain ⟨t, next⟩ := walkFromR0_completes chars s.link
  obtain ⟨_, polled⟩ := walkFromR0_frame next
  have spared : ¬ (vect = 0x21 ∨ vect = 0x25 ∨ namesRoutine vect = false) := by
    obtain rfl | rfl := walks <;> decide
  have speaks : ¬ (vect = 0x20 ∨ namesRoutine vect = false) := by
    obtain rfl | rfl := walks <;> decide
  exact ⟨t, next, .of_link polled.gprs polled.pc polled.cond polled.hold polled.mem
    (fun not22 not24 => (walks.elim not22 not24).elim) (fun h => absurd h spared) (fun h => absurd h speaks)
    fun _ => ⟨polled.fault, fun _ => polled.run⟩⟩

theorem out_trapRule (s : State) (out : List Byte) : TrapRule 0x21 s (s.link.consoleWriteSeq out) :=
  .of_link rfl rfl rfl rfl (fun _ _ => rfl) (fun _ _ _ _ => rfl) (fun _ => rfl) (fun h => absurd h (by decide))
    fun _ => ⟨rfl, fun _ => rfl⟩

theorem halt_trapRule (s : State) :
    TrapRule 0x25 s { s.link.consoleWriteSeq Config.haltNotice with run := .halted } :=
  .of_link rfl rfl rfl rfl (fun _ _ => rfl) (fun _ _ _ _ => rfl) (fun _ => rfl) (fun h => absurd h (by decide))
    fun _ => ⟨rfl, fun not25 => absurd rfl not25⟩

theorem raise_trapRule {vect : Byte} (other : namesRoutine vect = false) (s : State) (c : Condition) :
    TrapRule vect s (s.link.raise c) :=
  .of_link rfl rfl rfl rfl (fun _ _ => rfl) (fun _ _ _ _ => rfl) (fun _ => rfl) (fun _ => rfl)
    fun named => by rw [other] at named; cases named

/-- Each row of TRAP answers a next state that keeps to the rule of its vector. -/
theorem exec_trapRule {i : Instr} {vect : Byte} (row : trapVector i = some vect) (s : State) :
    ∃ t, exec i s = .next t ∧ TrapRule vect s t := by
  rw [exec_of_trapVector row]
  cases named : namesRoutine vect with
  | false => exact ⟨_, exec_trap_of_namesRoutine_false named s, raise_trapRule named s _⟩
  | true =>
    obtain rfl | rfl | rfl | rfl | rfl | rfl := routineVector_cases named
    · rw [← exec_of_trapVector (i := .getc) rfl, exec_getc]
      exact readOrHold_trapRule .getc s
    · rw [← exec_of_trapVector (i := .out) rfl]
      exact ⟨_, exec_out s, out_trapRule s _⟩
    · rw [← exec_of_trapVector (i := .puts) rfl, exec_puts]
      exact walkFromR0_trapRule putsChars (.inl rfl) s
    · rw [← exec_of_trapVector (i := .input) rfl, exec_input]
      exact readOrHold_trapRule .input s
    · rw [← exec_of_trapVector (i := .putsp) rfl, exec_putsp]
      exact walkFromR0_trapRule putspChars (.inr rfl) s
    · rw [← exec_of_trapVector (i := .halt) rfl]
      exact ⟨_, exec_halt s, halt_trapRule s⟩

/-- Settles O42: the rule of the vector. -/
theorem trapsSaveLinkAndKeepTheRest : Obligations.TrapsSaveLinkAndKeepTheRest := by
  intro i vect s row
  obtain ⟨t, next, rule⟩ := exec_trapRule row s
  exact ⟨t, next, rule.link, rule.pc, rule.regs, rule.reads, rule.polls, rule.mem, rule.kbdIn, rule.conOut,
    rule.control⟩

end Sys2Proof.Machine

/-! # The reserved opcodes RTI and RES (45_reserved.md rules R140, R141) -/

namespace Sys2Proof.Machine

/-- A word put together from its opcode value and its low twelve bits, as a union of the two placed fields. -/
theorem opcode_append_eq_or (b : BitVec 4) (low : BitVec 12) : b ++ low = place 12 b ||| low.setWidth 16 := by
  rw [BitVec.append_def, BitVec.shiftLeftZeroExtend_eq, BitVec.setWidth'_eq]
  rfl

/-- The frame of a fault: the record and `run` are written, and nothing else (60_exceptions.md rule R153). -/
theorem State.raise_frame (s : State) (c : Condition) :
    let t := s.raise c
    t.run = .faulted ∧ t.fault = some ⟨c, s.pc - 1⟩ ∧ SameRegsBut [] s t ∧ t.pc = s.pc ∧ t.cond = s.cond ∧
    SameMemBut [] s t ∧ SameConsole s t ∧ t.hold = s.hold :=
  ⟨s.raise_run c, s.raise_fault c, fun r _ => s.reg_raise c r, s.raise_pc c, s.raise_cond c,
    fun a _ => congrArg (Memory.read · a) (s.raise_mem c), ⟨s.raise_kbdIn c, s.raise_conOut c⟩, s.raise_hold c⟩

theorem exec_rti_recordsWord (low : BitVec 12) (s : State) :
    exec (.rti low) s = .next (s.raise (.illegalOpcode (0x8000 ||| low.setWidth 16))) := by
  rw [exec_rti, opcode_append_eq_or]
  rfl

theorem exec_res_recordsWord (low : BitVec 12) (s : State) :
    exec (.res low) s = .next (s.raise (.illegalOpcode (0xD000 ||| low.setWidth 16))) := by
  rw [exec_res, opcode_append_eq_or]
  rfl

/-- Settles O52: each opcode value has one row in the decoder, and executing it only raises the fault. -/
theorem reservedOpcodesRaise : Obligations.ReservedOpcodesRaise := by
  refine ⟨fun w op => ?_, fun w op => ?_, fun low s => ?_, fun low s => ?_⟩
  · exact decode_rti (by rw [op]; rfl)
  · exact decode_res (by rw [op]; rfl)
  · exact ⟨_, exec_rti_recordsWord low s, s.raise_frame _⟩
  · exact ⟨_, exec_res_recordsWord low s, s.raise_frame _⟩

end Sys2Proof.Machine

/-! # The end of a run, and the hold of a console read (60_exceptions.md) -/

namespace Sys2Proof.Machine

/-! ## An ended run (section 3) -/

theorem step_of_halted {s : State} (halted : s.run = .halted) : step s = .fault .runHalted := by
  simp only [step, halted]

theorem step_of_faulted {s : State} (faulted : s.run = .faulted) : step s = .fault (.runFaulted s.fault) := by
  simp only [step, faulted]

/-- Settles O21: the two branches of the step in which nothing is fetched. -/
theorem endedRunReportsItsOutcome : Obligations.EndedRunReportsItsOutcome := fun _ =>
  ⟨step_of_halted, step_of_faulted⟩

/-! ## The hold of a console read (rule R163) -/

/-- A step of a held machine with no character waiting leads to the same state. -/
theorem step_of_held_nil {s : State} {w : ConsoleWait} (running : s.run = .running) (held : s.hold = some w)
    (nothing : s.kbdIn = []) : step s = .next s := by
  rw [step_of_held running held, resumeHold_nil nothing]

/-- Settles O53: the reads are reached after the link and the prompt, and hold there. -/
theorem consoleReadHoldsWithoutInput : Obligations.ConsoleReadHoldsWithoutInput :=
  ⟨fun s nothing => ⟨readOrHold_nil (s := s.link) nothing .getc,
      readOrHold_nil (s := s.link.consoleWriteSeq Config.inPrompt) nothing .input⟩,
    fun _ _ => step_of_held_nil⟩

/-- GETC and IN are one routine with two prompts: the link, the prompt, the read (rules R131, R134). -/
theorem exec_of_getc_or_input {i : Instr} (reads : i = .getc ∨ i = .input) :
    ∃ w : ConsoleWait, ∀ s, exec i s = readOrHold w (s.link.consoleWriteSeq w.prompt) := by
  obtain rfl | rfl := reads
  · exact ⟨.getc, exec_getc⟩
  · exact ⟨.input, exec_input⟩

/-- Keys typed while a read holds are keys that wait when it begins (rules R96, R163). -/
theorem step_typeKeys_of_held {s : State} (w : ConsoleWait) (c : Byte) (cs : List Byte) (running : s.run = .running)
    (free : s.hold = none) (nothing : s.kbdIn = []) :
    step (State.typeKeys { s with hold := some w } (c :: cs)) = readOrHold w (s.typeKeys (c :: cs)) := by
  have waiting : (s.typeKeys (c :: cs)).kbdIn = c :: cs := by rw [State.typeKeys_kbdIn, nothing, List.nil_append]
  have released : { s.typeKeys (c :: cs) with hold := none } = s.typeKeys (c :: cs) := by
    rw [← free]
    rfl
  calc step (State.typeKeys { s with hold := some w } (c :: cs))
      = resumeHold w (State.typeKeys { s with hold := some w } (c :: cs)) := step_of_held running rfl
    _ = .next (State.afterRead { s.typeKeys (c :: cs) with hold := none } w c cs) :=
      resumeHold_cons (s := State.typeKeys { s with hold := some w } (c :: cs)) waiting w
    _ = .next ((s.typeKeys (c :: cs)).afterRead w c cs) := by rw [released]
    _ = readOrHold w (s.typeKeys (c :: cs)) := (readOrHold_cons waiting w).symm

/-- Settles O54: `step_typeKeys_of_held` in the state after the link and the prompt, which do not depend on kbd_in. -/
theorem typedKeyCompletesTheHeldRead : Obligations.TypedKeyCompletesTheHeldRead := by
  intro s h i c cs reads running free nothing next
  obtain ⟨w, meaning⟩ := exec_of_getc_or_input reads
  rw [meaning, readOrHold_nil (s := s.link.consoleWriteSeq _) nothing] at next
  cases next
  rw [meaning]
  exact step_typeKeys_of_held (s := s.link.consoleWriteSeq w.prompt) w c cs running free nothing

/-! ## What ends a run (rules R150 to R154) -/

/-- The instructions outside TRAP, RTI and RES leave `run` alone. -/
theorem exec_keeps_run {i : Instr} {s t : State} (notTrap : i.variant ≠ .trap) (notRti : i.variant ≠ .rti)
    (notRes : i.variant ≠ .res) (next : exec i s = .next t) : t.run = s.run := by
  cases i with
  | rti => exact absurd rfl notRti
  | res => exact absurd rfl notRes
  | getc | out | puts | input | putsp | halt | trap => exact absurd rfl notTrap
  | br => cases next; split <;> rfl
  | ld | ldr => cases next; exact State.memRead_run _ _
  | ldi => cases next; exact (State.memRead_run _ _).trans (State.memRead_run _ _)
  | sti => cases next; exact State.memRead_run _ _
  | add | addi | and | andi | not | lea | st | str | jmp | jsr | jsrr => cases next; rfl

/-- What executing the word `w` does to the run: it goes on, or it ends by HALT or by a fatal condition. -/
inductive RunEffect (w : Word) (s : State) : State → Prop where
  | goesOn {t : State} (run : t.run = s.run) : RunEffect w s t
  | halts {t : State} (halt : decode w = .halt) (run : t.run = .halted) : RunEffect w s t
  /-- RTI and RES (rules R140, R141, R151). -/
  | illegalOpcode (op : field 12 4 w = 0b1000 ∨ field 12 4 w = 0b1101) :
      RunEffect w s (s.raise (.illegalOpcode w))
  /-- A vector that names no routine, after the link (rules R137, R152). -/
  | illegalVector (op : field 12 4 w = 0b1111) (other : namesRoutine (field 0 8 w) = false) :
      RunEffect w s (s.link.raise (.illegalTrapVector (field 0 8 w)))

/-- A TRAP word: of the six routines HALT alone ends the run. -/
theorem RunEffect.of_trap {w : Word} {s t : State} (op : field 12 4 w = 0b1111)
    (next : exec (decode w) s = .next t) : RunEffect w s t := by
  have row : decode w = decodeTrap (field 0 8 w) := decode_trap (by rw [op]; rfl)
  by_cases halt : field 0 8 w = 0x25
  · have isHalt : decode w = .halt := by rw [row, halt]; rfl
    rw [isHalt, exec_halt] at next
    cases next
    exact .halts isHalt rfl
  · rw [row, exec_decodeTrap, ← exec_trap] at next
    cases named : namesRoutine (field 0 8 w) with
    | false =>
      rw [exec_trap_of_namesRoutine_false named] at next
      cases next
      exact .illegalVector op named
    | true =>
      obtain ⟨u, reached, rule⟩ := exec_trapRule (i := .trap (field 0 8 w)) rfl s
      rw [reached] at next
      cases next
      exact .goesOn ((rule.control named).2 halt)

/-- Every word that is executed has one of these effects on the run. -/
theorem exec_decode_runEffect {w : Word} {s t : State} (next : exec (decode w) s = .next t) : RunEffect w s t := by
  by_cases illegal : field 12 4 w = 0b1000 ∨ field 12 4 w = 0b1101
  · rw [exec_decode_illegalOpcode illegal] at next
    cases next
    exact .illegalOpcode illegal
  by_cases trap : field 12 4 w = 0b1111
  · exact .of_trap trap next
  have opcode {o : Opcode} (h : (decode w).variant = o) : field 12 4 w = Config.opcodeMap.symm o :=
    h ▸ opcodeField_of_decode rfl
  exact .goesOn (exec_keeps_run (fun h => trap (opcode h)) (fun h => illegal (.inl (opcode h)))
    (fun h => illegal (.inr (opcode h))) next)

theorem resumeHold_keeps_run {w : ConsoleWait} {s t : State} (next : resumeHold w s = .next t) : t.run = s.run := by
  obtain ⟨c, rest, -, rfl⟩ | ⟨-, rfl⟩ := resumeHold_cases next
  · rfl
  · rfl

/-- The record names the address the word was fetched from, through the link too (rules R92, R153). -/
theorem State.fetch_ia (s : State) : s.fetch.2.ia = s.pc := by
  rw [State.fetch_eq]
  exact State.ia_setPc_succ _ _

@[simp] theorem State.fetch_pc (s : State) : s.fetch.2.pc = s.pc + 1 := by rw [State.fetch_eq, State.setPc_pc]

@[simp] theorem State.fetch_run (s : State) : s.fetch.2.run = s.run := by
  rw [State.fetch_eq, State.setPc_run, State.memRead_run]

/-- A step of a running machine that ends the run has fetched a word and executed it. -/
theorem step_ends {s t : State} (next : step s = .next t) (ended : t.run ≠ .running) :
    s.hold = none ∧ RunEffect (s.memRead s.pc).1 s.fetch.2 t := by
  obtain ⟨running, ⟨w, -, resumed⟩ | ⟨free, executed⟩⟩ := step_cases next
  · exact absurd ((resumeHold_keeps_run resumed).trans running) ended
  · exact ⟨free, exec_decode_runEffect executed⟩

/-- Settles O57: the effects on the run, in the state after the fetch. -/
theorem runEndsOnlyByHaltOrFault : Obligations.RunEndsOnlyByHaltOrFault := by
  intro s t running next
  refine ⟨fun halted => ?_, fun faulted => ?_⟩
  · obtain ⟨free, effect⟩ := step_ends next (by simp [halted])
    refine ⟨free, ?_⟩
    cases effect with
    | goesOn run => simp [run, running] at halted
    | halts halt _ => exact halt
    | illegalOpcode | illegalVector => cases halted
  · obtain ⟨free, effect⟩ := step_ends next (by simp [faulted])
    refine ⟨free, ?_⟩
    cases effect with
    | goesOn run => simp [run, running] at faulted
    | halts _ run => simp [run] at faulted
    | illegalOpcode op => exact ⟨s.fetch_pc, .inl ⟨op, by rw [State.raise_fault, State.fetch_ia]⟩⟩
    | illegalVector op other =>
      have addr : s.fetch.2.link.ia = s.pc := s.fetch_ia
      exact ⟨s.fetch_pc, .inr ⟨op, other, by rw [State.raise_fault, addr]⟩⟩

end Sys2Proof.Machine

/-! # Loading images, and a store at pc (70_reset_and_hazards.md) -/

namespace Sys2Proof.Machine

/-! ## The loader stores a block of cells (rule R185) -/

/-- The block from `k` reads the words, every other cell what it did; the words past 0xFFFF have no address. -/
theorem Memory.read_storeFrom (k : Nat) (ws : List Word) (m : Memory) (a : Word) :
    (Memory.storeFrom k ws m).read a =
      if k ≤ a.toNat ∧ a.toNat < k + ws.length then ws.getD (a.toNat - k) 0 else m.read a := by
  induction ws generalizing k m with
  | nil => rw [Memory.storeFrom, if_neg (by simp only [List.length_nil]; omega)]
  | cons w ws ih =>
    simp only [Memory.storeFrom, List.length_cons]
    split
    · next inSpace =>
      have here : a = BitVec.ofNat 16 k ↔ a.toNat = k := by
        rw [← BitVec.toNat_inj, BitVec.toNat_ofNat, Nat.mod_eq_of_lt inSpace]
      rw [ih, Memory.read_write]
      obtain below | rfl | above := Nat.lt_trichotomy a.toNat k
      · rw [if_neg (by omega), if_neg (by rw [here]; omega), if_neg (by omega)]
      · simp
      · have index : a.toNat - k = a.toNat - (k + 1) + 1 := by omega
        have unwritten : a ≠ BitVec.ofNat 16 k := by rw [ne_eq, here]; omega
        rw [index, List.getD_cons_succ, if_neg unwritten]
        exact if_congr (by omega) rfl rfl
    · next pastEnd => rw [if_neg (by omega)]

theorem Memory.read_loadImage (m : Memory) (img : Image) (a : Word) :
    (m.loadImage img).read a =
      if img.origin.toNat ≤ a.toNat ∧ a.toNat < img.origin.toNat + img.words.length
      then img.words.getD (a.toNat - img.origin.toNat) 0 else m.read a :=
  Memory.read_storeFrom _ _ m a

/-- Settles O10: the two cases of what a cell reads after the loader's block of stores. -/
theorem imageWordsArePlacedInSequence : Obligations.ImageWordsArePlacedInSequence := fun m img a =>
  ⟨fun covered => by rw [Memory.read_loadImage, if_pos covered],
    fun uncovered => by rw [Memory.read_loadImage, if_neg uncovered]⟩

/-! ## A list of images (rules R31, R186) -/

theorem Memory.ofImages_nil : Memory.ofImages [] = [] := rfl

theorem Memory.ofImages_concat (images : List Image) (img : Image) :
    Memory.ofImages (images ++ [img]) = (Memory.ofImages images).loadImage img := by
  rw [Memory.ofImages, List.foldl_concat, ← Memory.ofImages]

/-- Settles O11: by induction from the end of the list, where the last image leaves an uncovered cell as it was. -/
theorem laterImagesOverwriteEarlier : Obligations.LaterImagesOverwriteEarlier := by
  refine ⟨Memory.ofImages_concat, fun images a uncovered => ?_⟩
  induction images using List.reverseRecOn with
  | nil => rw [Memory.ofImages_nil, Memory.read_nil]
  | append_singleton images img ih =>
    obtain ⟨-, frame⟩ := imageWordsArePlacedInSequence (Memory.ofImages images) img a
    rw [Memory.ofImages_concat, frame (uncovered img (by simp))]
    exact ih fun earlier listed => uncovered earlier (List.mem_append_left _ listed)

/-! ## The words of an image file (rule R184) -/

theorem toNat_append_byte (hi lo : Byte) : (hi ++ lo : Word).toNat = hi.toNat * 256 + lo.toNat := by
  rw [BitVec.toNat_append, ← Nat.shiftLeft_add_eq_or_of_lt lo.isLt, Nat.shiftLeft_eq]

theorem length_of_wordsOfBytes {bytes : List Byte} {ws : List Word} (h : wordsOfBytes bytes = some ws) :
    bytes.length = 2 * ws.length := by
  induction bytes using wordsOfBytes.induct generalizing ws with
  | case1 => cases h; rfl
  | case2 => cases h
  | case3 hi lo rest ih =>
    obtain ⟨ws, parsed, rfl⟩ := Option.map_eq_some_iff.mp h
    simp only [List.length_cons, ih parsed]
    omega

/-- Past the end both sides are 0. -/
theorem toNat_getD_of_wordsOfBytes {bytes : List Byte} {ws : List Word} (h : wordsOfBytes bytes = some ws) (k : Nat) :
    (ws.getD k 0).toNat = (bytes.getD (2 * k) 0).toNat * 256 + (bytes.getD (2 * k + 1) 0).toNat := by
  induction bytes using wordsOfBytes.induct generalizing ws k with
  | case1 => cases h; simp
  | case2 => cases h
  | case3 hi lo rest ih =>
    obtain ⟨ws, parsed, rfl⟩ := Option.map_eq_some_iff.mp h
    cases k with
    | zero => exact toNat_append_byte hi lo
    | succ k => exact ih parsed k

theorem exists_wordsOfBytes_of_even {bytes : List Byte} (even : bytes.length % 2 = 0) :
    ∃ ws, wordsOfBytes bytes = some ws := by
  induction bytes using wordsOfBytes.induct with
  | case1 => exact ⟨[], rfl⟩
  | case2 => cases even
  | case3 hi lo rest ih =>
    obtain ⟨ws, parsed⟩ := ih (by simpa [Nat.add_assoc] using even)
    exact ⟨(hi ++ lo) :: ws, by rw [wordsOfBytes, parsed, Option.map_some]⟩

/-- The origin is word 0 of the file, and the image's words are the others. -/
theorem Image.ofBytes_eq_some_iff {bytes : List Byte} {img : Image} :
    Image.ofBytes bytes = some img ↔ wordsOfBytes bytes = some (img.origin :: img.words) := by
  obtain ⟨origin, words⟩ := img
  unfold Image.ofBytes
  split
  · next word0 others parsed => simp [parsed]
  · next noOrigin => simpa using noOrigin origin words

/-- Settles O12: an image file is its words in order, and a file of an even number of bytes has words. -/
theorem imageFileIsBigEndian : Obligations.ImageFileIsBigEndian := by
  refine ⟨fun bytes img loaded => ?_, fun bytes => ⟨fun ⟨img, loaded⟩ => ?_, fun ⟨even, nonempty⟩ => ?_⟩⟩
  · have parsed := Image.ofBytes_eq_some_iff.mp loaded
    exact ⟨length_of_wordsOfBytes parsed, fun k _ => toNat_getD_of_wordsOfBytes parsed k⟩
  · have length := length_of_wordsOfBytes (Image.ofBytes_eq_some_iff.mp loaded)
    exact ⟨by omega, by rintro rfl; simp at length⟩
  · obtain ⟨ws, parsed⟩ := exists_wordsOfBytes_of_even even
    cases ws with
    | nil => exact absurd (List.length_eq_zero_iff.mp (length_of_wordsOfBytes parsed)) nonempty
    | cons origin words => exact ⟨⟨origin, words⟩, Image.ofBytes_eq_some_iff.mpr parsed⟩

/-! ## A store at pc (rule R191) -/

/-- Settles O23: the fetch away from the status address reads the stored cell. -/
theorem storeIsSeenByNextFetch : Obligations.StoreIsSeenByNextFetch := by
  intro s v running free plain
  obtain ⟨-, stepped⟩ := stepRunsTheDecodedInstruction (s.memWrite s.pc v) running free
  rw [stepped plain, State.memWrite_pc, State.memWrite_read_same]

end Sys2Proof.Machine

/-! # The reset state (10_state.md section 7) -/

namespace Sys2Proof.Machine

/-- INIT_MEM of no images is the empty memory (rule R31), with which `State.reset` launches. -/
theorem State.reset_eq_boot : State.reset = State.boot State.reset.gprs [] [] := rfl

@[simp] theorem State.reset_mem : State.reset.mem = [] := rfl

/-- Each register holds `Config.gprReset`, the model's choice (log entry 1). -/
theorem Gprs.get_reset (r : Reg) : State.reset.gprs.get r = Config.gprReset := by
  cases r <;> rfl

/-- Settles O9: the register values are those `State.reset` holds, and a cell of the empty memory reads 0. -/
theorem resetIsLaunchWithNothingLoaded : Obligations.ResetIsLaunchWithNothingLoaded :=
  ⟨⟨State.reset.gprs, State.reset_eq_boot, Gprs.get_reset⟩,
    fun a => by rw [State.reset_mem, Memory.read_nil]⟩

end Sys2Proof.Machine
